-- ==== Sys2Proof/Word.lean ====
section
/-! DEFINITION. The widths and the small enumerations of the spec's state and encodings (`00_scope.md` R10, R11, R12). -/

namespace Sys2Proof

/-- A wire byte, or an outbound MIDI byte: 8 bits (R11, R52). -/
abbrev Byte := BitVec 8

/-- The payload `p` of a wire byte, or a data value `d`: 7 bits (R11). -/
abbrev Payload := BitVec 7

/-- A 4-bit field: `d[3:0]`, or a MIDI channel number (R10, R22). -/
abbrev Nibble := BitVec 4

/-- A 3-bit field: `d[6:4]`, the "high nibble" of a 7-bit payload; also the width of `remaining` (R10, R29). -/
abbrev Count := BitVec 3

/-- The index of a logical channel, 0..3 (R21). -/
abbrev Chan := Fin 4

/-- The index of a CC slot, 0..6 (R24). -/
abbrev Slot := Fin 7

/-- The command kind of a channel command byte (R73). -/
inductive Kind where
  | note
  | controlChange
  | programChange
deriving DecidableEq, Repr

/-- The Frame Classifier's state (R32). -/
inductive FcState where
  | awaitingCommand
  | awaitingData
deriving DecidableEq, Repr

/-- A channel's CC mode (R23). -/
inductive CcMode where
  | single
  | scaled
deriving DecidableEq, Repr

/-- The tag of a channel's configuration state (R28); the count of `AwaitingCC(r)` is the field `remaining` (R29). -/
inductive ConfigState where
  | idle
  | awaitMC
  | awaitCC
  | awaitVel
deriving DecidableEq, Repr

/-- The level of the link clock line (R101, R109). -/
inductive Level where
  | low
  | high
deriving DecidableEq, Repr

end Sys2Proof
end

