-- ==== Sys2Proof/Config.lean ====
section
/-! DEFINITION. The constants the source fixes (R7), the parameters it leaves open (R8), and the free values
(`93_implementation_defined.md`): an open value is an opaque constant with no body, so that nothing proved about the
model can depend on what it is. -/

namespace Sys2Proof

/-- `CMD_THRESHOLD` (R7): a payload at or above it is a command byte. -/
def Config.cmdThreshold : Payload := 0x70#7

/-- `CFG_SENTINEL` (R7): the Program Change data value that enters configuration. -/
def Config.cfgSentinel : Payload := 0x6F#7

/-- `NOTE_OFF_VELOCITY` (R7): the third byte of every Note Off. -/
def Config.noteOffVelocity : Byte := 0x40#8

/-- `SCALE111_NUM` and `SCALE15_NUM` (R7). -/
def Config.scaleNum : Nat := 0x7F

/-- `SCALE111_DEN` (R7). -/
def Config.scale111Den : Nat := 0x6F

/-- `SCALE15_DEN` (R7). -/
def Config.scale15Den : Nat := 0xF

/-- `ST_NOTE_ON` (R7). -/
def Config.stNoteOn : Byte := 0x90#8

/-- `ST_NOTE_OFF` (R7). -/
def Config.stNoteOff : Byte := 0x80#8

/-- `ST_CC` (R7). -/
def Config.stCc : Byte := 0xB0#8

/-- `ST_PC` (R7). -/
def Config.stPc : Byte := 0xC0#8

/-- The four logical channels in ascending order (`NUM_CHANNELS`, R7; the loops "for c in 0..3" of R123). -/
def Config.channels : List Chan := [0, 1, 2, 3]

/-- `DEFAULT_VELOCITY` (R8, D6): OPEN, any value of 0..0x6F. Log entry 1. -/
opaque Config.defaultVelocity : Fin 0x70

/-- `RESERVED_PREEMPTS` (R8, D9): whether payloads 0x7C and 0x7F cancel a pending command. Log entry 2. -/
opaque Config.reservedPreempts : Bool

/-- `STOP_SWEEP_ORDER` (R8, D11) as a permutation: the position-to-channel map of the Stop sweep. Log entry 2. -/
opaque Config.stopSweepOrder : Equiv.Perm (Fin 4)

/-- The bit the remote presents at clock pulse number `k` when the model's list `linkIn` of presented bits is empty: a
free value (R107, U10). Log entry 6. -/
opaque Config.linkSample : Nat → Bool

/-- The third byte of a Note On whose velocity is above 0x6F, outside the domain of `scale111` (R181, U1): a free value
for each operand. Log entry 8. -/
opaque Config.scaleAboveDomain : Payload → Byte

/-- The result of `remaining - 1` at `remaining = 0`, outside the domain 1..7 of the decrement (R193): a free value.
Log entry 9. -/
opaque Config.countBelowZero : Count

end Sys2Proof
end

