-- ==== Sys2Proof/Syntax.lean ====
section
/-! DEFINITION. The instructions: one constructor per row of `spec/opcode_table.json` (R88). -/

namespace Sys2Proof

/-- The operations of R88. Byte-level rows are one received byte or poll, frame-level rows are what a completed
two-byte frame does (R79), `config` is the pseudo-instruction of R78 and R88, and the `m…` rows are the outbound
messages of R81 to R84. -/
inductive Instr where
  /-- `POLL.NONE`: the first sample is 0 (R100). -/
  | pollNone
  /-- `DATA.ORPHAN d`: a data byte with no command pending (R130). -/
  | dataOrphan (d : Payload)
  /-- `DATA.COMPLETE d`: the data byte of the pending command (R131). -/
  | dataComplete (d : Payload)
  /-- `CMD.NOTE c` (R127). -/
  | cmdNote (c : Chan)
  /-- `CMD.CC c` (R128). -/
  | cmdCc (c : Chan)
  /-- `CMD.PC c` (R129). -/
  | cmdPc (c : Chan)
  /-- `RSVD` (R126). -/
  | rsvd
  /-- `START` (R123). -/
  | start
  /-- `STOP` (R124). -/
  | stop
  /-- `TICK` (R125). -/
  | tick
  /-- `NOTE.ON c, d` (R185). -/
  | noteOn (c : Chan) (d : Payload)
  /-- `NOTE.OFF c` (R186). -/
  | noteOff (c : Chan)
  /-- `CC.SINGLE c, d` (R187). -/
  | ccSingle (c : Chan) (d : Payload)
  /-- `CC.SCALED c, sel, x` (R188). -/
  | ccScaled (c : Chan) (sel : Count) (x : Nibble)
  /-- `CFG.MODECH c, m, n` (R153). -/
  | cfgModeCh (c : Chan) (m : Count) (n : Nibble)
  /-- `CFG.CC c, g` (R154). -/
  | cfgCc (c : Chan) (g : Payload)
  /-- `CFG.VEL c, v` (R155). -/
  | cfgVel (c : Chan) (v : Payload)
  /-- `PC c, p` (R189). -/
  | pc (c : Chan) (p : Payload)
  /-- `CFG.ENTER c` (R151). -/
  | cfgEnter (c : Chan)
  /-- `CONFIG c, n, [g1, ..., gm], vel` (R78, R88). -/
  | config (c : Chan) (n : Nibble) (gs : List Payload) (vel : Payload)
  /-- `M.NOTEON n, k, v` (R81). -/
  | mNoteOn (n : Nibble) (k v : Payload)
  /-- `M.NOTEOFF n, k` (R82). -/
  | mNoteOff (n : Nibble) (k : Payload)
  /-- `M.CC n, g, v` (R83). -/
  | mCc (n : Nibble) (g v : Payload)
  /-- `M.PC n, p` (R84). -/
  | mPc (n : Nibble) (p : Payload)
deriving DecidableEq, Repr

end Sys2Proof
end

