-- ==== Sys2Proof/WellFormed.lean ====
section
/-! DEFINITION. Which operand values a row of the opcode table admits: its "constraint" entry and the rule it cites. -/

namespace Sys2Proof

/-- A data value the Classifier can deliver: `d < 0x70` (R75). -/
def isDataValue (d : Payload) : Bool := decide (d < 0x70#7)

/-- A program number: 0x00..0x6E (R84, R189). -/
def isProgram (p : Payload) : Bool := decide (p < 0x6F#7)

/-- A note number that can sound: 1..0x6F (R185, R248). -/
def isNote (d : Payload) : Bool := isDataValue d && decide (d ≠ 0#7)

/-- A 3-bit field of a data value: `d < 0x70` leaves 0..6 (R75). -/
def isReachableCount (m : Count) : Bool := decide (m ≠ 7#3)

/-- The operands are ones the row's encoding admits. -/
def Instr.wf : Instr → Bool
  | .pollNone => true
  | .dataOrphan d => isDataValue d
  | .dataComplete d => isDataValue d
  | .cmdNote _ => true
  | .cmdCc _ => true
  | .cmdPc _ => true
  | .rsvd => true
  | .start => true
  | .stop => true
  | .tick => true
  | .noteOn _ d => isNote d
  | .noteOff _ => true
  | .ccSingle _ d => isDataValue d
  | .ccScaled _ sel _ => isReachableCount sel
  | .cfgModeCh _ m _ => isReachableCount m
  | .cfgCc _ g => isDataValue g
  | .cfgVel _ v => isDataValue v
  | .pc _ p => isProgram p
  | .cfgEnter _ => true
  | .config _ _ gs vel => decide (gs.length ≤ 6) && gs.all isDataValue && isDataValue vel
  | .mNoteOn _ k _ => isNote k
  | .mNoteOff _ k => isNote k
  | .mCc _ g _ => isDataValue g
  | .mPc _ p => isProgram p

/-- An outbound message row (direction "out" of the opcode table). -/
def Instr.isMessage : Instr → Bool
  | .mNoteOn .. | .mNoteOff .. | .mCc .. | .mPc .. => true
  | .pollNone | .dataOrphan .. | .dataComplete .. | .cmdNote .. | .cmdCc .. | .cmdPc .. | .rsvd | .start | .stop | .tick
  | .noteOn .. | .noteOff .. | .ccSingle .. | .ccScaled .. | .cfgModeCh .. | .cfgCc .. | .cfgVel .. | .pc ..
  | .cfgEnter .. | .config .. => false

/-- A byte-level row: what one poll yields (R88). -/
def Instr.isByteLevel : Instr → Bool
  | .pollNone | .dataOrphan .. | .dataComplete .. | .cmdNote .. | .cmdCc .. | .cmdPc .. | .rsvd | .start | .stop | .tick => true
  | .noteOn .. | .noteOff .. | .ccSingle .. | .ccScaled .. | .cfgModeCh .. | .cfgCc .. | .cfgVel .. | .pc ..
  | .cfgEnter .. | .config .. | .mNoteOn .. | .mNoteOff .. | .mCc .. | .mPc .. => false

/-- A frame-level row: what a completed two-byte frame does (R79, R88). -/
def Instr.isFrameLevel : Instr → Bool
  | .noteOn .. | .noteOff .. | .ccSingle .. | .ccScaled .. | .cfgModeCh .. | .cfgCc .. | .cfgVel .. | .pc ..
  | .cfgEnter .. => true
  | .pollNone | .dataOrphan .. | .dataComplete .. | .cmdNote .. | .cmdCc .. | .cmdPc .. | .rsvd | .start | .stop | .tick
  | .config .. | .mNoteOn .. | .mNoteOff .. | .mCc .. | .mPc .. => false

/-- The logical channel an inbound operation is addressed to, where its operands name one (R21, R72). -/
def Instr.channel? : Instr → Option Chan
  | .cmdNote c | .cmdCc c | .cmdPc c | .noteOn c _ | .noteOff c | .ccSingle c _ | .ccScaled c _ _
  | .cfgModeCh c _ _ | .cfgCc c _ | .cfgVel c _ | .pc c _ | .cfgEnter c | .config c _ _ _ => some c
  | .pollNone | .dataOrphan _ | .dataComplete _ | .rsvd | .start | .stop | .tick
  | .mNoteOn .. | .mNoteOff .. | .mCc .. | .mPc .. => none

end Sys2Proof
end

