-- ==== Sys2Proof/Decode.lean ====
section
/-! DEFINITION. The encodings of `30_encoding.md`: field extraction, the decoder (total, refusing by name), the encoder. -/

namespace Sys2Proof

/-! ## Fields of a byte -/

/-- `B[6:0]`, the payload of a wire byte (R11, R70). -/
def payloadOf (B : Byte) : Payload := B.extractLsb' 0 7

/-- Wire = payload + 0x80 (R11): the flag bit above the payload. -/
def wireOf (p : Payload) : Byte := 1#1 ++ p

/-- A MIDI data byte: the 7-bit value zero-extended to 8 bits (R183). -/
def midiData (p : Payload) : Byte := 0#1 ++ p

/-- `d[6:4]` (R10). -/
def highField (d : Payload) : Count := d.extractLsb' 4 3

/-- `d[3:0]` (R10). -/
def lowNibble (d : Payload) : Nibble := d.extractLsb' 0 4

/-- `(m << 4) | n` as a 7-bit payload (R78). -/
def joinFields (m : Count) (n : Nibble) : Payload := m ++ n

/-- The class of a byte: a command byte iff `p >= 0x70` (R71). -/
def isCommand (p : Payload) : Bool := decide (Config.cmdThreshold ≤ p)

/-- `p[1:0]` as a logical channel (R72). -/
def chanField (p : Payload) : Chan := (p.extractLsb' 0 2).toFin

/-- `p[3:2]`, the field `kk` (R72). -/
def kindField (p : Payload) : BitVec 2 := p.extractLsb' 2 2

/-- The command kind of `kk`; 0b11 names none (R73). -/
def kindOf (kk : BitVec 2) : Option Kind :=
  if kk = 0b00#2 then some .note
  else if kk = 0b01#2 then some .controlChange
  else if kk = 0b10#2 then some .programChange
  else none

/-- A status byte: the message type's nibble OR the MIDI channel (R80). -/
def statusByte (type : Byte) (n : Nibble) : Byte := type ||| n.zeroExtend 8

/-! ## Inbound bytes -/

/-- The transport group, by its two low bits (R74). -/
def decodeTransport (tt : BitVec 2) : Instr :=
  if tt = 0b00#2 then .rsvd
  else if tt = 0b01#2 then .start
  else if tt = 0b10#2 then .stop
  else .tick

/-- A command byte's payload (R72, R73, R74). -/
def decodeCommand (p : Payload) : Instr :=
  match kindOf (kindField p) with
  | some .note => .cmdNote (chanField p)
  | some .controlChange => .cmdCc (chanField p)
  | some .programChange => .cmdPc (chanField p)
  | none => decodeTransport (p.extractLsb' 0 2)

/-- A received payload (R121): a command byte whatever the Classifier's state is, else the data byte of the state. -/
def decodePayload (st : FcState) (p : Payload) : Instr :=
  if isCommand p then decodeCommand p
  else
    match st with
    | .awaitingCommand => .dataOrphan p
    | .awaitingData => .dataComplete p

/-- The complete map of eight sampled bits (R89). -/
def decodeByte (st : FcState) (B : Byte) : Instr :=
  if B.msb then decodePayload st (payloadOf B) else .pollNone

/-! ## Inbound frames -/

/-- The operation of a dispatched frame, in the order of the table of R79. -/
def selectFrame (cfg : ConfigState) (mode : CcMode) (c : Chan) (k : Kind) (d : Payload) : Instr :=
  match k with
  | .note => if d = 0#7 then .noteOff c else .noteOn c d
  | .programChange => if d = Config.cfgSentinel then .cfgEnter c else .pc c d
  | .controlChange =>
    match cfg with
    | .awaitMC => .cfgModeCh c (highField d) (lowNibble d)
    | .awaitCC => .cfgCc c d
    | .awaitVel => .cfgVel c d
    | .idle =>
      match mode with
      | .single => .ccSingle c d
      | .scaled => .ccScaled c (highField d) (lowNibble d)

/-- Why a string of bytes is no instruction. -/
inductive DecodeError where
  /-- No bytes at all. -/
  | noBytes
  /-- The first of two bytes is neither a channel command byte nor a Program Change status byte. -/
  | notAChannelCommand
  /-- The second byte of a frame is not a data byte (R76). -/
  | notADataByte
  /-- The bytes are no outbound message of R81 to R84. -/
  | notAMessage
  /-- The bytes are no configuration sequence of R78. -/
  | notAConfigSequence
deriving DecidableEq, Repr

/-- The part of the state that decoding depends on (R79): the Classifier's state, and the addressed channel's
configuration state and CC mode. -/
structure DecodeCtx where
  fcState : FcState
  configState : ConfigState
  ccMode : CcMode
deriving DecidableEq, Repr

/-- The context of the state after reset (R38). -/
def DecodeCtx.reset : DecodeCtx := ⟨.awaitingCommand, .idle, .single⟩

/-- The channel and kind of a channel command byte (R72, R73). -/
def channelCommand? (B : Byte) : Option (Chan × Kind) :=
  if B.msb && isCommand (payloadOf B) then
    (kindOf (kindField (payloadOf B))).map fun k => (chanField (payloadOf B), k)
  else none

/-- The data value of a data byte (R75). -/
def dataValue? (B : Byte) : Option Payload :=
  if B.msb && !isCommand (payloadOf B) then some (payloadOf B) else none

/-- A two-byte frame `F2` (R76, R79). -/
def decodeFrame (ctx : DecodeCtx) (B1 B2 : Byte) : Except DecodeError Instr :=
  match channelCommand? B1 with
  | none => .error .notAChannelCommand
  | some (c, k) =>
    match dataValue? B2 with
    | none => .error .notADataByte
    | some d => .ok (selectFrame ctx.configState ctx.ccMode c k d)

/-! ## Outbound messages -/

/-- The message type's nibble of a status byte (R80). -/
def statusType (B : Byte) : Byte := B &&& 0xF0#8

/-- The MIDI channel of a status byte (R80). -/
def statusChannel (B : Byte) : Nibble := B.extractLsb' 0 4

/-- The two-byte message (R84). -/
def message2? (a b : Byte) : Option Instr :=
  if statusType a = Config.stPc && !b.msb then some (.mPc (statusChannel a) (payloadOf b)) else none

/-- The three-byte messages (R81, R82, R83). -/
def message3? (a b c : Byte) : Option Instr :=
  if b.msb || c.msb then none
  else if statusType a = Config.stNoteOn then some (.mNoteOn (statusChannel a) (payloadOf b) (payloadOf c))
  else if statusType a = Config.stCc then some (.mCc (statusChannel a) (payloadOf b) (payloadOf c))
  else if statusType a = Config.stNoteOff && decide (c = Config.noteOffVelocity) then
    some (.mNoteOff (statusChannel a) (payloadOf b))
  else none

/-- Reads an outbound byte stream as whole messages, if it is a concatenation of them (R37 invariant I6). -/
def parseMessages : List Byte → Option (List Instr)
  | [] => some []
  | [_] => none
  | a :: b :: rest =>
    match message2? a b with
    | some m => (parseMessages rest).map (m :: ·)
    | none =>
      match rest with
      | [] => none
      | c :: rest' =>
        match message3? a b c with
        | some m => (parseMessages rest').map (m :: ·)
        | none => none

/-! ## The configuration sequence -/

/-- Reads `CC c` frames for channel `c` to the end of the bytes: their data values in order (R78). -/
def ccFrames (c : Chan) : List Byte → Option (List Payload)
  | [] => some []
  | [_] => none
  | B1 :: B2 :: rest =>
    if channelCommand? B1 = some (c, .controlChange) then
      match dataValue? B2 with
      | some d => (ccFrames c rest).map (d :: ·)
      | none => none
    else none

/-- A whole configuration sequence (R78): ENTER, MODECH with count `m`, `m` CC-number frames, VEL. -/
def decodeConfig (bytes : List Byte) : Except DecodeError Instr :=
  match bytes with
  | B1 :: B2 :: rest =>
    match channelCommand? B1, dataValue? B2 with
    | some (c, .programChange), some e =>
      if e = Config.cfgSentinel then
        match ccFrames c rest with
        | some (d :: ds) =>
          match ds.getLast? with
          | some vel =>
            if ds.length = (highField d).toNat + 1 then .ok (.config c (lowNibble d) ds.dropLast vel)
            else .error .notAConfigSequence
          | none => .error .notAConfigSequence
        | _ => .error .notAConfigSequence
      else .error .notAConfigSequence
    | _, _ => .error .notAConfigSequence
  | _ => .error .notAConfigSequence

/-- The decoder: what a string of bytes stands for in a context, or why it stands for nothing. One byte is a poll's
result (R89), two are a frame or a Program Change message, three a message, and more the pseudo-instruction (R78). -/
def decode (ctx : DecodeCtx) (bytes : List Byte) : Except DecodeError Instr :=
  match bytes with
  | [] => .error .noBytes
  | [B] => .ok (decodeByte ctx.fcState B)
  | [B1, B2] =>
    match message2? B1 B2 with
    | some m => .ok m
    | none => decodeFrame ctx B1 B2
  | [a, b, c] =>
    match message3? a b c with
    | some m => .ok m
    | none => .error .notAMessage
  | B1 :: B2 :: B3 :: B4 :: rest => decodeConfig (B1 :: B2 :: B3 :: B4 :: rest)

/-! ## The encoder -/

/-- The command byte of kind field `kk` for channel `c`: `1111 kkcc` (R72). -/
def commandByte (kk : BitVec 2) (c : Chan) : Byte := 0b1111#4 ++ kk ++ BitVec.ofNat 2 c.val

/-- `CMD.NOTE c` (R127). -/
def noteCommand (c : Chan) : Byte := commandByte 0b00#2 c

/-- `CMD.CC c` (R128). -/
def ccCommand (c : Chan) : Byte := commandByte 0b01#2 c

/-- `CMD.PC c` (R129). -/
def pcCommand (c : Chan) : Byte := commandByte 0b10#2 c

/-- One `CC c, d` frame (R76). -/
def ccFrame (c : Chan) (d : Payload) : List Byte := [ccCommand c, wireOf d]

/-- The mode/channel data value of a sequence with `m` CC numbers (R78). -/
def modeChValue (m : Nat) (n : Nibble) : Payload := joinFields (BitVec.ofNat 3 m) n

/-- The bytes of an instruction (R76, R78, R81 to R84, R89), first byte first; `POLL.NONE` is given bits 6:0 zero,
which are never sampled. -/
def encode : Instr → List Byte
  | .pollNone => [0x00#8]
  | .dataOrphan d => [wireOf d]
  | .dataComplete d => [wireOf d]
  | .cmdNote c => [noteCommand c]
  | .cmdCc c => [ccCommand c]
  | .cmdPc c => [pcCommand c]
  | .rsvd => [0xFC#8]
  | .start => [0xFD#8]
  | .stop => [0xFE#8]
  | .tick => [0xFF#8]
  | .noteOn c d => [noteCommand c, wireOf d]
  | .noteOff c => [noteCommand c, 0x80#8]
  | .ccSingle c d => ccFrame c d
  | .ccScaled c sel x => ccFrame c (joinFields sel x)
  | .cfgModeCh c m n => ccFrame c (joinFields m n)
  | .cfgCc c g => ccFrame c g
  | .cfgVel c v => ccFrame c v
  | .pc c p => [pcCommand c, wireOf p]
  | .cfgEnter c => [pcCommand c, 0xEF#8]
  | .config c n gs vel =>
    [pcCommand c, 0xEF#8] ++ ccFrame c (modeChValue gs.length n) ++ gs.flatMap (ccFrame c) ++ ccFrame c vel
  | .mNoteOn n k v => [statusByte Config.stNoteOn n, midiData k, midiData v]
  | .mNoteOff n k => [statusByte Config.stNoteOff n, midiData k, Config.noteOffVelocity]
  | .mCc n g v => [statusByte Config.stCc n, midiData g, midiData v]
  | .mPc n p => [statusByte Config.stPc n, midiData p]

/-- The contexts in which the decoder selects a row that shares its bits with other rows (the table's "condition", R79). -/
def Instr.selectedIn (i : Instr) (ctx : DecodeCtx) : Bool :=
  match i with
  | .dataOrphan _ => ctx.fcState == .awaitingCommand
  | .dataComplete _ => ctx.fcState == .awaitingData
  | .ccSingle .. => ctx.configState == .idle && ctx.ccMode == .single
  | .ccScaled .. => ctx.configState == .idle && ctx.ccMode == .scaled
  | .cfgModeCh .. => ctx.configState == .awaitMC
  | .cfgCc .. => ctx.configState == .awaitCC
  | .cfgVel .. => ctx.configState == .awaitVel
  | .pollNone | .cmdNote .. | .cmdCc .. | .cmdPc .. | .rsvd | .start | .stop | .tick | .noteOn .. | .noteOff ..
  | .pc .. | .cfgEnter .. | .config .. | .mNoteOn .. | .mNoteOff .. | .mCc .. | .mPc .. => true

/-! ## The opcode table's words -/

/-- The bytes of a table word of `n` bytes, first byte first. The table puts the first byte in the highest bits
("command byte (bits 15:8) then data byte (bits 7:0)"). -/
def tableBytes : Nat → Nat → List Byte
  | 0, _ => []
  | n + 1, w => BitVec.ofNat 8 (w / 256 ^ n) :: tableBytes n w

/-- The instruction the decoder reads from a word of the opcode table, in the context after reset. A word that several
rows share gives the row that this context selects (R79). -/
def decodeTableWord (nbits w : Nat) : Option Instr :=
  match decode DecodeCtx.reset (tableBytes ((nbits + 7) / 8) w) with
  | .ok i => some i
  | .error _ => none

end Sys2Proof
end

