-- ==== Sys2Proof/Machine/State.lean ====
section
/-! DEFINITION. The machine's state (R20 to R40), why a step could stop, and the state after reset (R38). -/

namespace Sys2Proof.Machine

/-- The record of one logical channel: its settings (R22 to R25) and its runtime state (R27 to R29). -/
structure Channel where
  /-- The MIDI channel of every status byte this logical channel emits (R22). -/
  midiChannel : Nibble
  /-- The CC mode (R23). -/
  ccMode : CcMode
  /-- The seven CC slots; `none` is UNSET (R24). -/
  cc : Vector (Option Payload) 7
  /-- The note velocity, in the protocol's 0x00..0x6F domain (R25). -/
  velocity : Payload
  /-- The sounding note, 0 for none (R27). -/
  currentNote : Payload
  /-- The configuration state's tag (R28). -/
  configState : ConfigState
  /-- The CC-number bytes still expected; read only while `configState` is AwaitCC (R29). -/
  remaining : Count
deriving DecidableEq, Repr

/-- The receiver's state: what R20 lists, the clock line and pulse count of R38 and R15, and the environment's input. -/
structure State where
  /-- The four channel records (R20, R21). -/
  ch : Vector Channel 4
  /-- Whether the transport is started (R31). -/
  started : Bool
  /-- `fc.state` (R32). -/
  fcState : FcState
  /-- `fc.chan`, the pending command's channel (R33). -/
  fcChan : Chan
  /-- `fc.kind`, the pending command's kind (R33). -/
  fcKind : Kind
  /-- Every byte passed to `Emit` since reset, oldest first (R36). -/
  midiOut : List Byte
  /-- The link clock line (R38, R109). -/
  linkClock : Level
  /-- How many link clock pulses have been driven (R15 ii); also the index of the free link samples. -/
  pulses : Nat
  /-- THE MODEL'S OWN, the environment's input: the samples the remote presents at the coming pulses, next one first
  (R107). Log entry 6. -/
  linkIn : List Bool
deriving DecidableEq, Repr

/-- The faults of the machine: none. "A model has no fault outcome" (R14) and "The hardware raises no exception and takes
no trap" (R210); with no constructor, nobody can raise one, which is safe. -/
inductive Fault where
deriving DecidableEq, Repr

/-- The refusals of the model. -/
inductive Refusal where
  /-- An instruction that has no meaning yet: an arm of `exec` would raise it. No arm does, so it is never raised; safe. -/
  | notModelled (mnemonic : String)
deriving DecidableEq, Repr

/-- A channel record after reset (R38); the velocity is the open parameter DEFAULT_VELOCITY (log entry 1). -/
def Channel.reset : Channel :=
  { midiChannel := 0#4
    ccMode := .single
    cc := Vector.replicate 7 none
    velocity := BitVec.ofNat 7 Config.defaultVelocity.val
    currentNote := 0#7
    configState := .idle
    remaining := 0#3 }

/-- The machine right after reset (R38). The pending-command latch, which R38 leaves unspecified, is (0, Note): DESIGN
CHOICE, log entry 3. Nothing is presented on the link: log entry 6. -/
def State.reset : State :=
  { ch := Vector.replicate 4 Channel.reset
    started := false
    fcState := .awaitingCommand
    fcChan := 0
    fcKind := .note
    midiOut := []
    linkClock := .high
    pulses := 0
    linkIn := [] }

end Sys2Proof.Machine
end

