-- ==== Sys2Proof/Machine/Ops.lean ====
section
/-! DEFINITION. The named operations every meaning is written over: the channel records, the output primitives (R183),
`StopNote` (R184), abandonment (R156 to R158, R217), and the link primitive (R101).

The hardware takes no exception and returns from none (R210, R217, R218), so no operation takes one. "The nearest
analogue of trap entry is abandonment" (R217): `abandon`, which saves nothing and has no return. -/

namespace Sys2Proof.Machine

/-! ## Channel records -/

/-- `ch[c]`: the record of logical channel `c` (R12). -/
def State.chan (s : State) (c : Chan) : Channel := s.ch[c]

/-- Writes the record of logical channel `c` (R12). -/
def State.setChan (s : State) (c : Chan) (r : Channel) : State := { s with ch := s.ch.set c r }

/-- `cc[s]` of a record (R12). -/
def Channel.slot (r : Channel) (i : Slot) : Option Payload := r.cc[i]

/-- Writes one CC slot of a record (R12). -/
def Channel.setSlot (r : Channel) (i : Slot) (v : Option Payload) : Channel := { r with cc := r.cc.set i v }

/-- All seven slots UNSET (R153). -/
def Channel.clearSlots (r : Channel) : Channel := { r with cc := Vector.replicate 7 none }

/-! ## Output -/

/-- `Emit(b)`: appends a byte to `midi_out` (R183). -/
def emit (b : Byte) (s : State) : State := { s with midiOut := s.midiOut ++ [b] }

/-- `EmitNoteOn(ch, k, v)` (R183). The third byte is taken as 8 bits, since R181 gives no 7-bit value for a velocity
outside its domain (U1). -/
def emitNoteOn (n : Nibble) (k : Payload) (v : Byte) (s : State) : State :=
  emit v (emit (midiData k) (emit (statusByte Config.stNoteOn n) s))

/-- `EmitNoteOff(ch, k)` (R183). -/
def emitNoteOff (n : Nibble) (k : Payload) (s : State) : State :=
  emit Config.noteOffVelocity (emit (midiData k) (emit (statusByte Config.stNoteOff n) s))

/-- `EmitCC(ch, g, v)` (R183). -/
def emitCc (n : Nibble) (g : Payload) (v : Byte) (s : State) : State :=
  emit v (emit (midiData g) (emit (statusByte Config.stCc n) s))

/-- `EmitPC(ch, p)` (R183). -/
def emitPc (n : Nibble) (p : Payload) (s : State) : State :=
  emit (midiData p) (emit (statusByte Config.stPc n) s)

/-! ## Shared operations on a channel -/

/-- `StopNote(c)` (R184): the Note Off of the sounding note, if any, on the channel's present MIDI channel. -/
def stopNote (c : Chan) (s : State) : State :=
  let r := s.chan c
  if r.currentNote = 0#7 then s
  else (emitNoteOff r.midiChannel r.currentNote s).setChan c { r with currentNote := 0#7 }

/-- `ch[c].configState <- Idle`: abandonment (R156, R157, R158, R217). -/
def abandon (c : Chan) (s : State) : State := s.setChan c { s.chan c with configState := .idle }

/-! ## The link -/

/-- `LinkPulseAndSample()` (R101): drives the clock low, then high, then samples the data line. The sample is the next one
the remote presents (R107): the head of `linkIn`, and a free value when that list is empty (log entry 6). -/
def linkPulseAndSample (s : State) : Bool × State :=
  let low := { s with linkClock := .low }
  let high := { low with linkClock := .high, pulses := low.pulses + 1 }
  match s.linkIn with
  | b :: rest => (b, { high with linkIn := rest })
  | [] => (Config.linkSample s.pulses, high)

end Sys2Proof.Machine
end

