-- ==== Sys2Proof/Machine/Flags.lean ====
section
/-! DEFINITION. The hardware has no condition codes; its flag-like state is `started` (R31) and `fc.state` (R32). This file
holds every operation that computes or tests them. -/

namespace Sys2Proof.Machine

/-- `started <- b` (R123, R124). -/
def setStarted (b : Bool) (s : State) : State := { s with started := b }

/-- `fc.state <- st` (R121). -/
def setFcState (st : FcState) (s : State) : State := { s with fcState := st }

/-- `fc.chan <- c ; fc.kind <- k ; fc.state <- AwaitingData` (R121, R127 to R129). -/
def latchCommand (c : Chan) (k : Kind) (s : State) : State :=
  { s with fcChan := c, fcKind := k, fcState := .awaitingData }

/-- The next `fc.state` of the Classifier for a received payload (R134), with `RESERVED_PREEMPTS` as an argument. -/
def nextFcState (preempts : Bool) (st : FcState) (p : Payload) : FcState :=
  if isCommand p then
    match kindOf (kindField p) with
    | some _ => .awaitingData
    | none => if (p = 0x7C#7 ∨ p = 0x7F#7) ∧ preempts = false then st else .awaitingCommand
  else .awaitingCommand

/-- A reserved byte (R125, R126): `if RESERVED_PREEMPTS: fc.state <- AwaitingCommand`, and nothing else. -/
def reservedByte (preempts : Bool) (s : State) : State := if preempts then setFcState .awaitingCommand s else s

/-- Frame completion (R131) and the started gate (R132): `fc.state <- AwaitingCommand` whether or not started, then the
dispatched operation iff `started`. -/
def completeFrame (op : State → State) (s : State) : State :=
  let s1 := setFcState .awaitingCommand s
  if s1.started then op s1 else s1

end Sys2Proof.Machine
end

