-- ==== Sys2Proof/Machine/Operands.lean ====
section
/-! DEFINITION. Value assembly of the data byte's sub-fields (R77): the two rescaling functions (R181, R182) and the two
computed indices into the slot array (R154, R188, R193). -/

namespace Sys2Proof.Machine

/-- `scale111(v) = (v * 0x7F) div 0x6F` for `v` in 0..0x6F, the product exact (R181, R193); above that domain the byte is a
free value (U1, log entry 8). -/
def scale111 (v : Payload) : Byte :=
  if v ≤ 0x6F#7 then BitVec.ofNat 8 (v.toNat * Config.scaleNum / Config.scale111Den)
  else Config.scaleAboveDomain v

/-- `scale15(x) = (x * 0x7F) div 0xF` (R182). -/
def scale15 (x : Nibble) : Byte := BitVec.ofNat 8 (x.toNat * Config.scaleNum / Config.scale15Den)

/-- The slot a 3-bit index names: 0..6; "value 7 names no slot" (R50). -/
def slotOf (i : Count) : Option Slot := if h : i.toNat < 7 then some ⟨i.toNat, h⟩ else none

/-- The controller number a selector resolves to: none for selector 7 and for an UNSET slot (R188). -/
def resolveSlot (r : Channel) (sel : Count) : Option Payload :=
  match slotOf sel with
  | some i => r.slot i
  | none => none

/-- `remaining - 1` on 1..7 (R154, R193); at 0, which no run reaches, a free value (log entry 9). -/
def decrement (r : Count) : Count := if r = 0#3 then Config.countBelowZero else r - 1#3

/-- Fills the slot a 3-bit index names (R154). -/
def fillSlot (r : Channel) (i : Count) (g : Payload) : Channel :=
  match slotOf i with
  | some j => r.setSlot j (some g)
  | none => r

end Sys2Proof.Machine
end

