-- ==== Sys2Proof/Machine/ConfigEngine.lean ====
section
/-! DEFINITION. The Channel Configuration Engine (`42_config_engine.md`): CFG.ENTER, CFG.MODECH, CFG.CC, CFG.VEL. -/

namespace Sys2Proof.Machine

/-- `CfgEnter(c)` (R151). -/
def cfgEnter (c : Chan) (s : State) : State := s.setChan c { s.chan c with configState := .awaitMC }

/-- The record after CFG.MODECH's writes, in the order of R153; the count 0 leaves `ccMode` as it was. -/
def modeChRecord (m : Count) (n : Nibble) (r : Channel) : Channel :=
  let r1 := { ({ r with midiChannel := n } : Channel).clearSlots with remaining := m }
  if m = 0#3 then { r1 with configState := .awaitVel }
  else if m = 1#3 then { r1 with ccMode := .single, configState := .awaitCC }
  else { r1 with ccMode := .scaled, configState := .awaitCC }

/-- `CfgModeCh(c, d)` with `m = d[6:4]`, `n = d[3:0]` (R153): the forced Note Off on the old MIDI channel comes first. -/
def cfgModeCh (c : Chan) (m : Count) (n : Nibble) (s : State) : State :=
  let s1 := if n = (s.chan c).midiChannel then s else stopNote c s
  s1.setChan c (modeChRecord m n (s1.chan c))

/-- The record after CFG.CC (R154). -/
def cfgCcRecord (g : Payload) (r : Channel) : Channel :=
  let left := decrement r.remaining
  let r1 := { fillSlot r left g with remaining := left }
  if left = 0#3 then { r1 with configState := .awaitVel } else r1

/-- `CfgCc(c, d)` (R154). -/
def cfgCc (c : Chan) (g : Payload) (s : State) : State := s.setChan c (cfgCcRecord g (s.chan c))

/-- `CfgVel(c, d)` (R155). -/
def cfgVel (c : Chan) (v : Payload) (s : State) : State :=
  s.setChan c { s.chan c with velocity := v, configState := .idle }

/-- `CFG.ENTER c` as a completed frame (R132, R133, R151, R159). -/
def execCfgEnter (c : Chan) (s : State) : Host.Outcome State Fault Refusal := .next (completeFrame (cfgEnter c) s)

/-- `CFG.MODECH c, m, n` as a completed frame (R132, R133, R153). -/
def execCfgModeCh (c : Chan) (m : Count) (n : Nibble) (s : State) : Host.Outcome State Fault Refusal :=
  .next (completeFrame (cfgModeCh c m n) s)

/-- `CFG.CC c, g` as a completed frame (R132, R133, R154). -/
def execCfgCc (c : Chan) (g : Payload) (s : State) : Host.Outcome State Fault Refusal :=
  .next (completeFrame (cfgCc c g) s)

/-- `CFG.VEL c, v` as a completed frame (R132, R133, R155). -/
def execCfgVel (c : Chan) (v : Payload) (s : State) : Host.Outcome State Fault Refusal :=
  .next (completeFrame (cfgVel c v) s)

end Sys2Proof.Machine
end

