-- ==== Sys2Proof/Machine/Translator.lean ====
section
/-! DEFINITION. The Event Translator / MIDI Synthesizer (`43_translator.md`): NOTE.ON, NOTE.OFF, CC.SINGLE, CC.SCALED, PC. -/

namespace Sys2Proof.Machine

/-- `NoteOn(c, d)` (R185). -/
def noteOn (c : Chan) (d : Payload) (s : State) : State :=
  let s1 := stopNote c s
  let s2 := s1.setChan c { s1.chan c with currentNote := d }
  emitNoteOn (s2.chan c).midiChannel d (scale111 (s2.chan c).velocity) s2

/-- `NoteOff(c)` (R186). -/
def noteOff (c : Chan) (s : State) : State := stopNote c s

/-- `CcSingle(c, d)` (R187): slot 0, or nothing if it is UNSET. -/
def ccSingle (c : Chan) (d : Payload) (s : State) : State :=
  match (s.chan c).slot 0 with
  | none => s
  | some g => emitCc (s.chan c).midiChannel g (scale111 d) s

/-- `CcScaled(c, d)` with `sel = d[6:4]`, `x = d[3:0]` (R188): the selected slot, or nothing if there is none or it is
UNSET. -/
def ccScaled (c : Chan) (sel : Count) (x : Nibble) (s : State) : State :=
  match resolveSlot (s.chan c) sel with
  | none => s
  | some g => emitCc (s.chan c).midiChannel g (scale15 x) s

/-- `ProgChange(c, d)` (R189). -/
def progChange (c : Chan) (p : Payload) (s : State) : State := emitPc (s.chan c).midiChannel p s

/-- `NOTE.ON c, d` as a completed frame: the gate, the abandonment, the translation (R132, R133, R156, R185). -/
def execNoteOn (c : Chan) (d : Payload) (s : State) : Host.Outcome State Fault Refusal :=
  .next (completeFrame (fun t => noteOn c d (abandon c t)) s)

/-- `NOTE.OFF c` as a completed frame (R132, R133, R156, R186). -/
def execNoteOff (c : Chan) (s : State) : Host.Outcome State Fault Refusal :=
  .next (completeFrame (fun t => noteOff c (abandon c t)) s)

/-- `CC.SINGLE c, d` as a completed frame (R132, R133, R187). -/
def execCcSingle (c : Chan) (d : Payload) (s : State) : Host.Outcome State Fault Refusal :=
  .next (completeFrame (ccSingle c d) s)

/-- `CC.SCALED c, sel, x` as a completed frame (R132, R133, R188). -/
def execCcScaled (c : Chan) (sel : Count) (x : Nibble) (s : State) : Host.Outcome State Fault Refusal :=
  .next (completeFrame (ccScaled c sel x) s)

/-- `PC c, p` as a completed frame (R132, R133, R157, R189). -/
def execPc (c : Chan) (p : Payload) (s : State) : Host.Outcome State Fault Refusal :=
  .next (completeFrame (fun t => progChange c p (abandon c t)) s)

end Sys2Proof.Machine
end

