-- ==== Sys2Proof/Machine/Classifier.lean ====
section
/-! DEFINITION. The Frame Classifier and the dispatcher (`41_frame_classifier.md`): START, STOP, TICK, RSVD, CMD.NOTE, CMD.CC,
CMD.PC, DATA.ORPHAN, DATA.COMPLETE, and `Classify` as R121 writes it. -/

namespace Sys2Proof.Machine

/-! ## The transport group -/

/-- `DoStart()` (R123). -/
def doStart (s : State) : State := setStarted true (Config.channels.foldl (fun t c => abandon c t) s)

/-- One channel of the Stop sweep: `StopNote(c) ; ch[c].configState <- Idle` (R124). -/
def sweepChannel (s : State) (c : Chan) : State := abandon c (stopNote c s)

/-- `DoStop()` with the sweep order as an argument (R124). -/
def doStop (order : List Chan) (s : State) : State := setStarted false (order.foldl sweepChannel s)

/-- The channels in the order of `STOP_SWEEP_ORDER` (R8). -/
def sweepOrder : List Chan := Config.channels.map Config.stopSweepOrder

/-! ## Dispatch -/

/-- `Dispatch(c, kind, d)` (R133). -/
def dispatch (c : Chan) (k : Kind) (d : Payload) (s : State) : State :=
  match k with
  | .note => if d = 0#7 then noteOff c (abandon c s) else noteOn c d (abandon c s)
  | .programChange => if d = Config.cfgSentinel then cfgEnter c s else progChange c d (abandon c s)
  | .controlChange =>
    match (s.chan c).configState with
    | .idle =>
      match (s.chan c).ccMode with
      | .single => ccSingle c d s
      | .scaled => ccScaled c (highField d) (lowNibble d) s
    | .awaitMC => cfgModeCh c (highField d) (lowNibble d) s
    | .awaitCC => cfgCc c d s
    | .awaitVel => cfgVel c d s

/-- The data byte of the pending command (R131): completion, the gate, dispatch of the latched triple. -/
def completeData (d : Payload) (s : State) : State := completeFrame (dispatch s.fcChan s.fcKind d) s

/-- `Classify(p)` (R121), the parameters of R8 as arguments. -/
def classifyWith (preempts : Bool) (order : List Chan) (p : Payload) (s : State) : State :=
  if isCommand p then
    if p = 0x7D#7 then doStart (setFcState .awaitingCommand s)
    else if p = 0x7E#7 then doStop order (setFcState .awaitingCommand s)
    else if p = 0x7F#7 then reservedByte preempts s
    else if p = 0x7C#7 then reservedByte preempts s
    else
      match kindOf (kindField p) with
      | some k => latchCommand (chanField p) k s
      | none => s
  else
    match s.fcState with
    | .awaitingCommand => s
    | .awaitingData => completeData p s

/-- `Classify(p)` of this hardware. -/
def classify (p : Payload) (s : State) : State := classifyWith Config.reservedPreempts sweepOrder p s

/-! ## Meanings -/

/-- `START` (R121, R123). -/
def execStart (s : State) : Host.Outcome State Fault Refusal := .next (doStart (setFcState .awaitingCommand s))

/-- `STOP` (R121, R124). -/
def execStop (s : State) : Host.Outcome State Fault Refusal := .next (doStop sweepOrder (setFcState .awaitingCommand s))

/-- `TICK` (R121, R125). -/
def execTick (s : State) : Host.Outcome State Fault Refusal := .next (reservedByte Config.reservedPreempts s)

/-- `RSVD` (R121, R126): "Identical in effect to TICK". -/
def execRsvd (s : State) : Host.Outcome State Fault Refusal := .next (reservedByte Config.reservedPreempts s)

/-- `CMD.NOTE c` (R127). -/
def execCmdNote (c : Chan) (s : State) : Host.Outcome State Fault Refusal := .next (latchCommand c .note s)

/-- `CMD.CC c` (R128). -/
def execCmdCc (c : Chan) (s : State) : Host.Outcome State Fault Refusal := .next (latchCommand c .controlChange s)

/-- `CMD.PC c` (R129). -/
def execCmdPc (c : Chan) (s : State) : Host.Outcome State Fault Refusal := .next (latchCommand c .programChange s)

/-- `DATA.ORPHAN d` (R130): the byte is discarded. -/
def execDataOrphan (_d : Payload) (s : State) : Host.Outcome State Fault Refusal := .next s

/-- `DATA.COMPLETE d` (R131, R132, R133). -/
def execDataComplete (d : Payload) (s : State) : Host.Outcome State Fault Refusal := .next (completeData d s)

end Sys2Proof.Machine
end

