-- ==== Sys2Proof/Machine/LinkReader.lean ====
section
/-! DEFINITION. The Bit/Byte Link Reader (`40_link_reader.md`): `Poll`, and the poll that finds no byte. -/

namespace Sys2Proof.Machine

/-- `B <- (B << 1) | si` (R103). -/
def shiftIn (acc : Byte) (b : Bool) : Byte := (acc <<< 1) ||| (BitVec.ofBool b).zeroExtend 8

/-- The loop of R103: `k` more samples, each shifted in below the ones before it. The accumulator is the Reader's shift
register, which lives only inside one poll (R35). -/
def readBits : Nat → Byte → State → Byte × State
  | 0, acc, s => (acc, s)
  | k + 1, acc, s =>
    let (b, s1) := linkPulseAndSample s
    readBits k (shiftIn acc b) s1

/-- `Poll()` (R102, R103): the first sample gates the other seven. -/
def poll (s : State) : Option Byte × State :=
  let (s7, s1) := linkPulseAndSample s
  if s7 then
    let (B, s2) := readBits 7 1#8 s1
    (some B, s2)
  else (none, s1)

/-- `POLL.NONE` (R106, R120): "no state change, no output". -/
def execPollNone (s : State) : Host.Outcome State Fault Refusal := .next s

/-- The samples of a wire byte in the order they are taken, most significant first (R53); of a byte whose bit 7 is 0 only
that bit is ever sampled (R89). -/
def byteSamples (B : Byte) : List Bool :=
  if B.msb then [7, 6, 5, 4, 3, 2, 1, 0].map B.getLsbD else [false]

/-- The remote presents these wire bytes next, ahead of whatever else it would have presented (R107). -/
def present (bytes : List Byte) (s : State) : State := { s with linkIn := bytes.flatMap byteSamples ++ s.linkIn }

end Sys2Proof.Machine
end

