-- ==== Sys2Proof/Machine/Messages.lean ====
section
/-! DEFINITION. The outbound message rows M.NOTEON, M.NOTEOFF, M.CC, M.PC (R81 to R84): each is the act of emitting that
message, one of the four helpers of R183. No inbound byte encodes them (log entry 13). -/

namespace Sys2Proof.Machine

/-- `M.NOTEON n, k, v` (R81, R183). -/
def execMNoteOn (n : Nibble) (k v : Payload) (s : State) : Host.Outcome State Fault Refusal :=
  .next (emitNoteOn n k (midiData v) s)

/-- `M.NOTEOFF n, k` (R82, R183). -/
def execMNoteOff (n : Nibble) (k : Payload) (s : State) : Host.Outcome State Fault Refusal :=
  .next (emitNoteOff n k s)

/-- `M.CC n, g, v` (R83, R183). -/
def execMCc (n : Nibble) (g v : Payload) (s : State) : Host.Outcome State Fault Refusal :=
  .next (emitCc n g (midiData v) s)

/-- `M.PC n, p` (R84, R183). -/
def execMPc (n : Nibble) (p : Payload) (s : State) : Host.Outcome State Fault Refusal :=
  .next (emitPc n p s)

end Sys2Proof.Machine
end

