-- ==== Sys2Proof/Machine/Pseudo.lean ====
section
/-! DEFINITION. The pseudo-instruction CONFIG (R78, R88): what its bytes do, received one after another. -/

namespace Sys2Proof.Machine

/-- The effect of received wire bytes, in order: `StepByte` of R120, one byte at a time. -/
def classifyAll (bytes : List Byte) (s : State) : State :=
  bytes.foldl (fun t B => classify (payloadOf B) t) s

/-- `CONFIG c, n, [g1, ..., gm], vel` (R88): the expansion `PC c, 0x6F; CC c, (m<<4)|n; CC c, g1; ...; CC c, vel`. -/
def execConfig (c : Chan) (n : Nibble) (gs : List Payload) (vel : Payload) (s : State) :
    Host.Outcome State Fault Refusal :=
  .next (classifyAll (encode (.config c n gs vel)) s)

end Sys2Proof.Machine
end

