-- ==== Sys2Proof/Machine/Dispatch.lean ====
section
/-! DEFINITION. One arm per row of the opcode table, each one call of its meaning. -/

namespace Sys2Proof.Machine

-- Byte-level rows come first, then the frame-level rows, the pseudo-instruction and the outbound messages.
def exec (i : Instr) (s : State) : Host.Outcome State Fault Refusal :=
  match i with
  | .pollNone => Sys2Proof.Machine.execPollNone s
  | .dataOrphan d => Sys2Proof.Machine.execDataOrphan d s
  | .dataComplete d => Sys2Proof.Machine.execDataComplete d s
  | .cmdNote c => Sys2Proof.Machine.execCmdNote c s
  | .cmdCc c => Sys2Proof.Machine.execCmdCc c s
  | .cmdPc c => Sys2Proof.Machine.execCmdPc c s
  | .rsvd => Sys2Proof.Machine.execRsvd s
  | .start => Sys2Proof.Machine.execStart s
  | .stop => Sys2Proof.Machine.execStop s
  | .tick => Sys2Proof.Machine.execTick s
  | .noteOn c d => Sys2Proof.Machine.execNoteOn c d s
  | .noteOff c => Sys2Proof.Machine.execNoteOff c s
  | .ccSingle c d => Sys2Proof.Machine.execCcSingle c d s
  | .ccScaled c sel x => Sys2Proof.Machine.execCcScaled c sel x s
  | .cfgModeCh c m n => Sys2Proof.Machine.execCfgModeCh c m n s
  | .cfgCc c g => Sys2Proof.Machine.execCfgCc c g s
  | .cfgVel c v => Sys2Proof.Machine.execCfgVel c v s
  | .pc c p => Sys2Proof.Machine.execPc c p s
  | .cfgEnter c => Sys2Proof.Machine.execCfgEnter c s
  | .config c n gs vel => Sys2Proof.Machine.execConfig c n gs vel s
  | .mNoteOn n k v => Sys2Proof.Machine.execMNoteOn n k v s
  | .mNoteOff n k => Sys2Proof.Machine.execMNoteOff n k s
  | .mCc n g v => Sys2Proof.Machine.execMCc n g v s
  | .mPc n p => Sys2Proof.Machine.execMPc n p s

end Sys2Proof.Machine
end

