-- ==== Sys2Proof/Machine/Fetch.lean ====
section
/-! DEFINITION. Fetching: one poll, and the instruction it yields; and `ready`, which brings a state to the point where the
next poll yields a given instruction. -/

namespace Sys2Proof.Machine

/-- One poll and the byte-level instruction it stands for (R89, R120): no byte is `POLL.NONE`, a byte is decoded in the
Classifier's present state. -/
def fetch (s : State) : Instr × State :=
  match poll s with
  | (none, s1) => (.pollNone, s1)
  | (some B, s1) => (decodeByte s1.fcState B, s1)

/-- The state in which channel `c`'s command byte of kind `k` has been received and the remote presents the data byte of
`d` next. -/
def pendingFrame (c : Chan) (k : Kind) (d : Payload) (s : State) : State :=
  present [wireOf d] (latchCommand c k s)

/-- The same for a ControlChange frame, with the channel in a given configuration state. -/
def pendingCc (c : Chan) (cfg : ConfigState) (d : Payload) (s : State) : State :=
  pendingFrame c .controlChange d (s.setChan c { s.chan c with configState := cfg })

/-- A protocol value that `scale111` takes to the MIDI value `v`, if there is one (R181). -/
def unscale111 (v : Payload) : Payload :=
  match (List.range 0x70).find? (fun u => u * Config.scaleNum / Config.scale111Den == v.toNat) with
  | some u => BitVec.ofNat 7 u
  | none => 0#7

/-- Brings a state to where the NEXT step runs `i`: the remote presents its byte, and what its row's condition names stands
as the condition says. For the pseudo-instruction the remote presents all its bytes, which take one step each. No inbound
byte is an outbound message; for those rows the next byte is one whose step emits that message (log entries 13, 15). -/
def ready (i : Instr) (s : State) : State :=
  match i with
  | .pollNone => present [0x00#8] s
  | .dataOrphan d => present [wireOf d] (setFcState .awaitingCommand s)
  | .dataComplete d => present [wireOf d] (setFcState .awaitingData s)
  | .cmdNote c => present [noteCommand c] s
  | .cmdCc c => present [ccCommand c] s
  | .cmdPc c => present [pcCommand c] s
  | .rsvd => present [0xFC#8] s
  | .start => present [0xFD#8] s
  | .stop => present [0xFE#8] s
  | .tick => present [0xFF#8] s
  | .noteOn c d => pendingFrame c .note d s
  | .noteOff c => pendingFrame c .note 0#7 s
  | .ccSingle c d => pendingCc c .idle d (s.setChan c { s.chan c with ccMode := .single })
  | .ccScaled c sel x => pendingCc c .idle (joinFields sel x) (s.setChan c { s.chan c with ccMode := .scaled })
  | .cfgModeCh c m n => pendingCc c .awaitMC (joinFields m n) s
  | .cfgCc c g => pendingCc c .awaitCC g s
  | .cfgVel c v => pendingCc c .awaitVel v s
  | .pc c p => pendingFrame c .programChange p s
  | .cfgEnter c => pendingFrame c .programChange Config.cfgSentinel s
  | .config c n gs vel => present (encode (.config c n gs vel)) s
  | .mNoteOn n k v =>
    pendingFrame 0 .note k (setStarted true
      (s.setChan 0 { s.chan 0 with midiChannel := n, currentNote := 0#7, velocity := unscale111 v }))
  | .mNoteOff n k =>
    pendingFrame 0 .note 0#7 (setStarted true (s.setChan 0 { s.chan 0 with midiChannel := n, currentNote := k }))
  | .mCc n g v =>
    pendingCc 0 .idle (unscale111 v) (setStarted true
      (s.setChan 0 (({ s.chan 0 with midiChannel := n, ccMode := .single } : Channel).setSlot 0 (some g))))
  | .mPc n p =>
    pendingFrame 0 .programChange p (setStarted true (s.setChan 0 { s.chan 0 with midiChannel := n }))

/-- A word of the opcode table placed where the next step fetches: `ready` of the instruction the decoder reads from it,
and for a word the decoder refuses, its bytes as the remote's next bytes. -/
def placeWord (s : State) (nbits w : Nat) : State :=
  match decodeTableWord nbits w with
  | some i => ready i s
  | none => present (tableBytes ((nbits + 7) / 8) w) s

end Sys2Proof.Machine
end

