-- ==== Sys2Proof/Machine/Step.lean ====
section
/-! DEFINITION. The one transition of the machine (R13, R120): one poll and the complete processing of what it yields. -/

namespace Sys2Proof.Machine

/-- `Step()` (R120). -/
def step (s : State) : Host.Outcome State Fault Refusal :=
  match fetch s with
  | (i, s1) => exec i s1

/-- A word of the opcode table made the next thing `step` runs; it stands for the remote presenting it (log entry 15). -/
def State.withFetchWord (s : State) (nbits w : Nat) : State := placeWord s nbits w

end Sys2Proof.Machine
end

