-- ==== Sys2Proof/Safety.lean ====
section
/-! DEFINITION. The terms claims about the machine use: the invariants of R37, and what a channel's Note Off is.
A run of this machine is safe when every state of it meets `State.Inv`; nothing stops a run (R14). -/

namespace Sys2Proof.Machine

/-- The Note Off that silences a channel: its three bytes on the present MIDI channel if a note sounds, nothing otherwise
(R82, R184). -/
def Channel.noteOffBytes (r : Channel) : List Byte :=
  if r.currentNote = 0#7 then [] else [statusByte 0x80#8 r.midiChannel, midiData r.currentNote, 0x40#8]

/-- The channel silenced and abandoned, its settings kept (R124). -/
def Channel.quiet (r : Channel) : Channel := { r with currentNote := 0#7, configState := .idle }

/-- `s` with its link fields as a poll leaves them: the clock high, `n` more pulses driven, `rest` still to be presented. -/
def afterPulses (n : Nat) (rest : List Bool) (s : State) : State :=
  { s with linkIn := rest, pulses := s.pulses + n, linkClock := .high }

/-- `s` after a completed frame addressed to channel `c` that emitted `bs` and left the record `r` there: `fc.state` is
AwaitingCommand, and every other field and every other channel is as before. -/
def afterFrame (s : State) (c : Chan) (bs : List Byte) (r : Channel) : State :=
  ({ s with fcState := .awaitingCommand, midiOut := s.midiOut ++ bs }).setChan c r

/-- The settings of a channel are the same in two records (R22 to R25). -/
def Channel.sameSettings (r r' : Channel) : Prop :=
  r'.midiChannel = r.midiChannel ∧ r'.ccMode = r.ccMode ∧ r'.cc = r.cc ∧ r'.velocity = r.velocity

/-- R37 I1 for one channel: every value lies in the protocol's domain 0..0x6F (`midiChannel` is 4 bits wide). -/
structure Channel.InRange (r : Channel) : Prop where
  velocity : r.velocity ≤ 0x6F#7
  currentNote : r.currentNote ≤ 0x6F#7
  slots : ∀ i g, r.slot i = some g → g ≤ 0x6F#7

/-- R37 I4 and I5 for one channel, with what makes them hold step by step: a countdown is in 1..6 (and is 1 in Single mode),
slot 6 is never set (R24), and in Single mode only slot 0 can be. -/
structure Channel.CountOk (r : Channel) : Prop where
  counting : r.configState = .awaitCC → r.remaining ≠ 0#3 ∧ r.remaining ≠ 7#3
  countingSingle : r.configState = .awaitCC → r.ccMode = .single → r.remaining = 1#3
  lastSlot : r.slot 6 = none
  singleSlots : r.ccMode = .single → ∀ i, i ≠ 0 → r.slot i = none

/-- The Note On messages for MIDI channel `n` and note `k` in a list of messages. -/
def noteOns (n : Nibble) (k : Payload) (ms : List Instr) : Nat :=
  ms.countP fun m => match m with
    | .mNoteOn n' k' _ => decide (n' = n) && decide (k' = k)
    | _ => false

/-- The Note Off messages for MIDI channel `n` and note `k` in a list of messages. -/
def noteOffs (n : Nibble) (k : Payload) (ms : List Instr) : Nat :=
  ms.countP fun m => match m with
    | .mNoteOff n' k' => decide (n' = n) && decide (k' = k)
    | _ => false

/-- How many logical channels have note `k` sounding on MIDI channel `n`. -/
def sounding (n : Nibble) (k : Payload) (s : State) : Nat :=
  Config.channels.countP fun c => decide ((s.chan c).midiChannel = n) && decide ((s.chan c).currentNote = k)

/-- R37 I6 and I3: `midi_out` is a concatenation of whole messages, and on every MIDI channel the Note Ons of a note not yet
followed by a Note Off are as many as the logical channels whose `currentNote` it is on that MIDI channel. -/
def State.OutputOk (s : State) : Prop :=
  ∃ ms, parseMessages s.midiOut = some ms ∧
    ∀ n k, k ≠ 0#7 → noteOns n k ms = noteOffs n k ms + sounding n k s

/-- The invariant of the machine (R37), with the idle level of the clock line between polls (R109). -/
structure State.Inv (s : State) : Prop where
  /-- I1 -/
  inRange : ∀ c, (s.chan c).InRange
  /-- I2 -/
  stoppedQuiet : s.started = false → ∀ c, (s.chan c).currentNote = 0#7 ∧ (s.chan c).configState = .idle
  /-- I4, I5 -/
  countOk : ∀ c, (s.chan c).CountOk
  /-- I3, I6 -/
  outputOk : s.OutputOk
  /-- R109 -/
  clockHigh : s.linkClock = .high

end Sys2Proof.Machine
end

