-- ==== Sys2Proof/Laws/State.lean ====
section
/-! SUPPORT. One lemma per field per update, so that no proof unfolds a record update. -/

namespace Sys2Proof.Machine

/-! ## Writing a channel record -/

@[simp] theorem setChan_started (s : State) (c : Chan) (r : Channel) : (s.setChan c r).started = s.started := rfl
@[simp] theorem setChan_fcState (s : State) (c : Chan) (r : Channel) : (s.setChan c r).fcState = s.fcState := rfl
@[simp] theorem setChan_fcChan (s : State) (c : Chan) (r : Channel) : (s.setChan c r).fcChan = s.fcChan := rfl
@[simp] theorem setChan_fcKind (s : State) (c : Chan) (r : Channel) : (s.setChan c r).fcKind = s.fcKind := rfl
@[simp] theorem setChan_midiOut (s : State) (c : Chan) (r : Channel) : (s.setChan c r).midiOut = s.midiOut := rfl
@[simp] theorem setChan_linkClock (s : State) (c : Chan) (r : Channel) : (s.setChan c r).linkClock = s.linkClock := rfl
@[simp] theorem setChan_pulses (s : State) (c : Chan) (r : Channel) : (s.setChan c r).pulses = s.pulses := rfl
@[simp] theorem setChan_linkIn (s : State) (c : Chan) (r : Channel) : (s.setChan c r).linkIn = s.linkIn := rfl

@[simp] theorem chan_setChan_same (s : State) (c : Chan) (r : Channel) : (s.setChan c r).chan c = r := by
  simp [State.chan, State.setChan]

theorem chan_setChan_ne (s : State) (c c' : Chan) (r : Channel) (h : c' ≠ c) : (s.setChan c r).chan c' = s.chan c' := by
  have h' : c.val ≠ c'.val := fun e => h (Fin.ext e.symm)
  simp [State.chan, State.setChan, Vector.getElem_set_ne, h']

theorem chan_setChan (s : State) (c c' : Chan) (r : Channel) :
    (s.setChan c r).chan c' = if c' = c then r else s.chan c' := by
  by_cases h : c' = c
  · subst h; simp
  · simp [h, chan_setChan_ne]

@[simp] theorem setChan_setChan (s : State) (c : Chan) (r r' : Channel) : (s.setChan c r).setChan c r' = s.setChan c r' := by
  simp [State.setChan]

@[simp] theorem setChan_chan (s : State) (c : Chan) : s.setChan c (s.chan c) = s := by
  simp [State.setChan, State.chan]

/-- Two states with the same channel records and the same other fields are the same state. -/
theorem State.ext_chan (s t : State) (hc : ∀ c, s.chan c = t.chan c) (h1 : s.started = t.started)
    (h2 : s.fcState = t.fcState) (h3 : s.fcChan = t.fcChan) (h4 : s.fcKind = t.fcKind) (h5 : s.midiOut = t.midiOut)
    (h6 : s.linkClock = t.linkClock) (h7 : s.pulses = t.pulses) (h8 : s.linkIn = t.linkIn) : s = t := by
  have h0 : s.ch = t.ch := by
    apply Vector.ext
    intro i hi
    exact hc ⟨i, hi⟩
  cases s; cases t; simp_all

/-! ## CC slots of a record -/

@[simp] theorem setSlot_midiChannel (r : Channel) (i : Slot) (v : Option Payload) : (r.setSlot i v).midiChannel = r.midiChannel := rfl
@[simp] theorem setSlot_ccMode (r : Channel) (i : Slot) (v : Option Payload) : (r.setSlot i v).ccMode = r.ccMode := rfl
@[simp] theorem setSlot_velocity (r : Channel) (i : Slot) (v : Option Payload) : (r.setSlot i v).velocity = r.velocity := rfl
@[simp] theorem setSlot_currentNote (r : Channel) (i : Slot) (v : Option Payload) : (r.setSlot i v).currentNote = r.currentNote := rfl
@[simp] theorem setSlot_configState (r : Channel) (i : Slot) (v : Option Payload) : (r.setSlot i v).configState = r.configState := rfl
@[simp] theorem setSlot_remaining (r : Channel) (i : Slot) (v : Option Payload) : (r.setSlot i v).remaining = r.remaining := rfl
@[simp] theorem clearSlots_midiChannel (r : Channel) : r.clearSlots.midiChannel = r.midiChannel := rfl
@[simp] theorem clearSlots_ccMode (r : Channel) : r.clearSlots.ccMode = r.ccMode := rfl
@[simp] theorem clearSlots_velocity (r : Channel) : r.clearSlots.velocity = r.velocity := rfl
@[simp] theorem clearSlots_currentNote (r : Channel) : r.clearSlots.currentNote = r.currentNote := rfl
@[simp] theorem clearSlots_configState (r : Channel) : r.clearSlots.configState = r.configState := rfl
@[simp] theorem clearSlots_remaining (r : Channel) : r.clearSlots.remaining = r.remaining := rfl

@[simp] theorem slot_setSlot_same (r : Channel) (i : Slot) (v : Option Payload) : (r.setSlot i v).slot i = v := by
  simp [Channel.slot, Channel.setSlot]

theorem slot_setSlot_ne (r : Channel) (i j : Slot) (v : Option Payload) (h : j ≠ i) : (r.setSlot i v).slot j = r.slot j := by
  have h' : i.val ≠ j.val := fun e => h (Fin.ext e.symm)
  simp [Channel.slot, Channel.setSlot, Vector.getElem_set_ne, h']

theorem slot_setSlot (r : Channel) (i j : Slot) (v : Option Payload) :
    (r.setSlot i v).slot j = if j = i then v else r.slot j := by
  by_cases h : j = i
  · subst h; simp
  · simp [h, slot_setSlot_ne]

@[simp] theorem slot_clearSlots (r : Channel) (i : Slot) : r.clearSlots.slot i = none := by
  simp [Channel.slot, Channel.clearSlots]

/-! ## Emission -/

@[simp] theorem emit_midiOut (b : Byte) (s : State) : (emit b s).midiOut = s.midiOut ++ [b] := rfl
@[simp] theorem emit_chan (b : Byte) (s : State) (c : Chan) : (emit b s).chan c = s.chan c := rfl
@[simp] theorem emit_started (b : Byte) (s : State) : (emit b s).started = s.started := rfl
@[simp] theorem emit_fcState (b : Byte) (s : State) : (emit b s).fcState = s.fcState := rfl
@[simp] theorem emit_fcChan (b : Byte) (s : State) : (emit b s).fcChan = s.fcChan := rfl
@[simp] theorem emit_fcKind (b : Byte) (s : State) : (emit b s).fcKind = s.fcKind := rfl
@[simp] theorem emit_linkClock (b : Byte) (s : State) : (emit b s).linkClock = s.linkClock := rfl
@[simp] theorem emit_pulses (b : Byte) (s : State) : (emit b s).pulses = s.pulses := rfl
@[simp] theorem emit_linkIn (b : Byte) (s : State) : (emit b s).linkIn = s.linkIn := rfl

/-! ## The flag-like state -/

@[simp] theorem setStarted_started (b : Bool) (s : State) : (setStarted b s).started = b := rfl
@[simp] theorem setStarted_chan (b : Bool) (s : State) (c : Chan) : (setStarted b s).chan c = s.chan c := rfl
@[simp] theorem setStarted_fcState (b : Bool) (s : State) : (setStarted b s).fcState = s.fcState := rfl
@[simp] theorem setStarted_fcChan (b : Bool) (s : State) : (setStarted b s).fcChan = s.fcChan := rfl
@[simp] theorem setStarted_fcKind (b : Bool) (s : State) : (setStarted b s).fcKind = s.fcKind := rfl
@[simp] theorem setStarted_midiOut (b : Bool) (s : State) : (setStarted b s).midiOut = s.midiOut := rfl
@[simp] theorem setStarted_linkClock (b : Bool) (s : State) : (setStarted b s).linkClock = s.linkClock := rfl
@[simp] theorem setStarted_pulses (b : Bool) (s : State) : (setStarted b s).pulses = s.pulses := rfl
@[simp] theorem setStarted_linkIn (b : Bool) (s : State) : (setStarted b s).linkIn = s.linkIn := rfl

@[simp] theorem setFcState_fcState (f : FcState) (s : State) : (setFcState f s).fcState = f := rfl
@[simp] theorem setFcState_chan (f : FcState) (s : State) (c : Chan) : (setFcState f s).chan c = s.chan c := rfl
@[simp] theorem setFcState_started (f : FcState) (s : State) : (setFcState f s).started = s.started := rfl
@[simp] theorem setFcState_fcChan (f : FcState) (s : State) : (setFcState f s).fcChan = s.fcChan := rfl
@[simp] theorem setFcState_fcKind (f : FcState) (s : State) : (setFcState f s).fcKind = s.fcKind := rfl
@[simp] theorem setFcState_midiOut (f : FcState) (s : State) : (setFcState f s).midiOut = s.midiOut := rfl
@[simp] theorem setFcState_linkClock (f : FcState) (s : State) : (setFcState f s).linkClock = s.linkClock := rfl
@[simp] theorem setFcState_pulses (f : FcState) (s : State) : (setFcState f s).pulses = s.pulses := rfl
@[simp] theorem setFcState_linkIn (f : FcState) (s : State) : (setFcState f s).linkIn = s.linkIn := rfl

@[simp] theorem latchCommand_fcState (c : Chan) (k : Kind) (s : State) : (latchCommand c k s).fcState = .awaitingData := rfl
@[simp] theorem latchCommand_fcChan (c : Chan) (k : Kind) (s : State) : (latchCommand c k s).fcChan = c := rfl
@[simp] theorem latchCommand_fcKind (c : Chan) (k : Kind) (s : State) : (latchCommand c k s).fcKind = k := rfl
@[simp] theorem latchCommand_chan (c : Chan) (k : Kind) (s : State) (c' : Chan) : (latchCommand c k s).chan c' = s.chan c' := rfl
@[simp] theorem latchCommand_started (c : Chan) (k : Kind) (s : State) : (latchCommand c k s).started = s.started := rfl
@[simp] theorem latchCommand_midiOut (c : Chan) (k : Kind) (s : State) : (latchCommand c k s).midiOut = s.midiOut := rfl
@[simp] theorem latchCommand_linkClock (c : Chan) (k : Kind) (s : State) : (latchCommand c k s).linkClock = s.linkClock := rfl
@[simp] theorem latchCommand_pulses (c : Chan) (k : Kind) (s : State) : (latchCommand c k s).pulses = s.pulses := rfl
@[simp] theorem latchCommand_linkIn (c : Chan) (k : Kind) (s : State) : (latchCommand c k s).linkIn = s.linkIn := rfl

/-! ## What the remote presents -/

@[simp] theorem present_linkIn (bs : List Byte) (s : State) : (present bs s).linkIn = bs.flatMap byteSamples ++ s.linkIn := rfl
@[simp] theorem present_chan (bs : List Byte) (s : State) (c : Chan) : (present bs s).chan c = s.chan c := rfl
@[simp] theorem present_started (bs : List Byte) (s : State) : (present bs s).started = s.started := rfl
@[simp] theorem present_fcState (bs : List Byte) (s : State) : (present bs s).fcState = s.fcState := rfl
@[simp] theorem present_fcChan (bs : List Byte) (s : State) : (present bs s).fcChan = s.fcChan := rfl
@[simp] theorem present_fcKind (bs : List Byte) (s : State) : (present bs s).fcKind = s.fcKind := rfl
@[simp] theorem present_midiOut (bs : List Byte) (s : State) : (present bs s).midiOut = s.midiOut := rfl
@[simp] theorem present_linkClock (bs : List Byte) (s : State) : (present bs s).linkClock = s.linkClock := rfl
@[simp] theorem present_pulses (bs : List Byte) (s : State) : (present bs s).pulses = s.pulses := rfl

end Sys2Proof.Machine
end

