-- ==== Sys2Proof/Laws/Decode.lean ====
section
/-! SUPPORT. The small facts of the encodings: the fields of a wire byte, the cases of a command byte, and the frames and
messages the encoder writes. Each is over at most 256 values and is decided. -/

namespace Sys2Proof

@[simp] theorem payloadOf_wireOf (p : Payload) : payloadOf (wireOf p) = p := by revert p; decide
@[simp] theorem msb_wireOf (p : Payload) : (wireOf p).msb = true := by revert p; decide
theorem wireOf_payloadOf (B : Byte) (h : B.msb = true) : wireOf (payloadOf B) = B := by revert B; decide
@[simp] theorem payloadOf_midiData (p : Payload) : payloadOf (midiData p) = p := by revert p; decide
@[simp] theorem msb_midiData (p : Payload) : (midiData p).msb = false := by revert p; decide
theorem midiData_payloadOf (B : Byte) (h : B.msb = false) : midiData (payloadOf B) = B := by revert B; decide

theorem isCommand_eq_not_isDataValue (p : Payload) : isCommand p = !isDataValue p := by revert p; decide
theorem isDataValue_iff (d : Payload) : isDataValue d = true ↔ d ≤ 0x6F#7 := by revert d; decide
theorem isDataValue_of_isProgram (p : Payload) (h : isProgram p = true) : isDataValue p = true ∧ p ≠ 0x6F#7 := by
  revert p; decide
theorem isDataValue_of_isNote (d : Payload) (h : isNote d = true) : isDataValue d = true ∧ d ≠ 0#7 := by
  revert d; decide
theorem isDataValue_sentinel : isDataValue Config.cfgSentinel = true := by decide

/-- A command byte is one of the four transport codes, or a channel command of one of the three kinds (R72, R74). -/
theorem command_cases (p : Payload) (h : isCommand p = true) :
    (p = 0x7D#7 ∧ decodeCommand p = .start) ∨ (p = 0x7E#7 ∧ decodeCommand p = .stop) ∨
    (p = 0x7F#7 ∧ decodeCommand p = .tick) ∨ (p = 0x7C#7 ∧ decodeCommand p = .rsvd) ∨
    (p < 0x7C#7 ∧ ∃ k, kindOf (kindField p) = some k ∧
      decodeCommand p = (match k with
        | .note => .cmdNote (chanField p)
        | .controlChange => .cmdCc (chanField p)
        | .programChange => .cmdPc (chanField p))) := by
  have hd : ∀ p : Payload, isCommand p = true →
      (p = 0x7D#7 ∧ decodeCommand p = .start) ∨ (p = 0x7E#7 ∧ decodeCommand p = .stop) ∨
      (p = 0x7F#7 ∧ decodeCommand p = .tick) ∨ (p = 0x7C#7 ∧ decodeCommand p = .rsvd) ∨
      (p < 0x7C#7 ∧ kindOf (kindField p) = some .note ∧ decodeCommand p = .cmdNote (chanField p)) ∨
      (p < 0x7C#7 ∧ kindOf (kindField p) = some .controlChange ∧ decodeCommand p = .cmdCc (chanField p)) ∨
      (p < 0x7C#7 ∧ kindOf (kindField p) = some .programChange ∧ decodeCommand p = .cmdPc (chanField p)) := by decide
  rcases hd p h with h | h | h | h | h | h | h
  · exact .inl h
  · exact .inr (.inl h)
  · exact .inr (.inr (.inl h))
  · exact .inr (.inr (.inr (.inl h)))
  · exact .inr (.inr (.inr (.inr ⟨h.1, .note, h.2.1, h.2.2⟩)))
  · exact .inr (.inr (.inr (.inr ⟨h.1, .controlChange, h.2.1, h.2.2⟩)))
  · exact .inr (.inr (.inr (.inr ⟨h.1, .programChange, h.2.1, h.2.2⟩)))

theorem not_transport (p : Payload) (h : p < 0x7C#7) : p ≠ 0x7D#7 ∧ p ≠ 0x7E#7 ∧ p ≠ 0x7F#7 ∧ p ≠ 0x7C#7 := by
  revert p; decide

/-- The channel command byte of a kind (R72). -/
def commandOf (k : Kind) (c : Chan) : Byte :=
  match k with
  | .note => noteCommand c
  | .controlChange => ccCommand c
  | .programChange => pcCommand c

@[simp] theorem channelCommand_noteCommand (c : Chan) : channelCommand? (noteCommand c) = some (c, .note) := by revert c; decide
@[simp] theorem channelCommand_ccCommand (c : Chan) : channelCommand? (ccCommand c) = some (c, .controlChange) := by
  revert c; decide
@[simp] theorem channelCommand_pcCommand (c : Chan) : channelCommand? (pcCommand c) = some (c, .programChange) := by
  revert c; decide

theorem channelCommand_some (B : Byte) (c : Chan) (k : Kind) (h : channelCommand? B = some (c, k)) : B = commandOf k c := by
  have hd : ∀ B : Byte, (channelCommand? B).all (fun ck => decide (B = commandOf ck.2 ck.1)) = true := by decide
  simpa [h] using hd B

theorem dataValue_some (B : Byte) (d : Payload) (h : dataValue? B = some d) : B = wireOf d ∧ isDataValue d = true := by
  have hd : ∀ B : Byte, (dataValue? B).all (fun d => decide (B = wireOf d) && isDataValue d) = true := by decide
  simpa [h] using hd B

@[simp] theorem msb_noteCommand (c : Chan) : (noteCommand c).msb = true := by revert c; decide
@[simp] theorem msb_ccCommand (c : Chan) : (ccCommand c).msb = true := by revert c; decide
@[simp] theorem msb_pcCommand (c : Chan) : (pcCommand c).msb = true := by revert c; decide

theorem dataValue_wireOf (d : Payload) (h : isDataValue d = true) : dataValue? (wireOf d) = some d := by
  revert d; decide

/-- No frame reads as a two-byte message: its first byte is 0xF0 or above. -/
theorem message2_commandOf (k : Kind) (c : Chan) (b : Byte) : message2? (commandOf k c) b = none := by
  have h : ∀ c, statusType (commandOf k c) ≠ Config.stPc := by cases k <;> decide
  simp [message2?, h c]

@[simp] theorem highField_joinFields (m : Count) (n : Nibble) : highField (joinFields m n) = m := by
  revert m n; decide
@[simp] theorem lowNibble_joinFields (m : Count) (n : Nibble) : lowNibble (joinFields m n) = n := by
  revert m n; decide
@[simp] theorem joinFields_fields (d : Payload) : joinFields (highField d) (lowNibble d) = d := by revert d; decide
theorem isDataValue_joinFields (m : Count) (n : Nibble) : isDataValue (joinFields m n) = isReachableCount m := by
  revert m n; decide

@[simp] theorem statusType_statusByte_on (n : Nibble) : statusType (statusByte Config.stNoteOn n) = Config.stNoteOn := by
  revert n; decide
@[simp] theorem statusType_statusByte_off (n : Nibble) : statusType (statusByte Config.stNoteOff n) = Config.stNoteOff := by
  revert n; decide
@[simp] theorem statusType_statusByte_cc (n : Nibble) : statusType (statusByte Config.stCc n) = Config.stCc := by
  revert n; decide
@[simp] theorem statusType_statusByte_pc (n : Nibble) : statusType (statusByte Config.stPc n) = Config.stPc := by
  revert n; decide
@[simp] theorem statusChannel_statusByte_on (n : Nibble) : statusChannel (statusByte Config.stNoteOn n) = n := by
  revert n; decide
@[simp] theorem statusChannel_statusByte_off (n : Nibble) : statusChannel (statusByte Config.stNoteOff n) = n := by
  revert n; decide
@[simp] theorem statusChannel_statusByte_cc (n : Nibble) : statusChannel (statusByte Config.stCc n) = n := by
  revert n; decide
@[simp] theorem statusChannel_statusByte_pc (n : Nibble) : statusChannel (statusByte Config.stPc n) = n := by
  revert n; decide
theorem statusByte_fields (B : Byte) : statusByte (statusType B) (statusChannel B) = B := by revert B; decide

/-! ## Outbound messages -/

theorem message2_mPc (n : Nibble) (p : Payload) : message2? (statusByte Config.stPc n) (midiData p) = some (.mPc n p) := by
  simp [message2?]

theorem message2_of_type (a b : Byte) (h : statusType a ≠ Config.stPc) : message2? a b = none := by simp [message2?, h]

theorem message3_mNoteOn (n : Nibble) (k v : Payload) :
    message3? (statusByte Config.stNoteOn n) (midiData k) (midiData v) = some (.mNoteOn n k v) := by simp [message3?]

theorem message3_mCc (n : Nibble) (g v : Payload) :
    message3? (statusByte Config.stCc n) (midiData g) (midiData v) = some (.mCc n g v) := by
  have : Config.stCc ≠ Config.stNoteOn := by decide
  simp [message3?, this]

theorem message3_mNoteOff (n : Nibble) (k : Payload) :
    message3? (statusByte Config.stNoteOff n) (midiData k) Config.noteOffVelocity = some (.mNoteOff n k) := by
  have h1 : Config.stNoteOff ≠ Config.stNoteOn := by decide
  have h2 : Config.stNoteOff ≠ Config.stCc := by decide
  have h3 : Config.noteOffVelocity.msb = false := by decide
  simp [message3?, h1, h2, h3]

theorem parseMessages_two (a b : Byte) (rest : List Byte) (m : Instr) (h : message2? a b = some m) :
    parseMessages (a :: b :: rest) = (parseMessages rest).map (m :: ·) := by
  cases rest <;> simp [parseMessages, h]

theorem parseMessages_three (a b c : Byte) (rest : List Byte) (m : Instr) (h2 : message2? a b = none)
    (h : message3? a b c = some m) : parseMessages (a :: b :: c :: rest) = (parseMessages rest).map (m :: ·) := by
  simp [parseMessages, h2, h]

/-- A whole message at the head of a stream is read first. -/
theorem parseMessages_encode (m : Instr) (h : m.isMessage = true) (bs : List Byte) :
    parseMessages (encode m ++ bs) = (parseMessages bs).map (m :: ·) := by
  cases m with
  | mNoteOn n k v =>
    exact parseMessages_three _ _ _ _ _ (message2_of_type _ _ (by simp; decide)) (message3_mNoteOn n k v)
  | mNoteOff n k =>
    exact parseMessages_three _ _ _ _ _ (message2_of_type _ _ (by simp; decide)) (message3_mNoteOff n k)
  | mCc n g v => exact parseMessages_three _ _ _ _ _ (message2_of_type _ _ (by simp; decide)) (message3_mCc n g v)
  | mPc n p => exact parseMessages_two _ _ _ _ (message2_mPc n p)
  | _ => simp [Instr.isMessage] at h

/-- Whole messages appended to a stream of whole messages are read after it. -/
theorem parseMessages_append (bs bs' : List Byte) (ms : List Instr) (h : parseMessages bs = some ms) :
    parseMessages (bs ++ bs') = (parseMessages bs').map (ms ++ ·) := by
  induction bs using parseMessages.induct generalizing ms with
  | case1 => simp [parseMessages] at h; subst h; simp
  | case2 => simp [parseMessages] at h
  | case3 a b rest m hm ih =>
    rw [parseMessages_two _ _ _ _ hm] at h
    obtain ⟨ms', h', rfl⟩ := Option.map_eq_some_iff.mp h
    rw [List.cons_append, List.cons_append, parseMessages_two _ _ _ _ hm, ih ms' h', Option.map_map]
    rfl
  | case4 a b hm => simp [parseMessages, hm] at h
  | case5 a b hm c rest m hm3 ih =>
    rw [parseMessages_three _ _ _ _ _ hm hm3] at h
    obtain ⟨ms', h', rfl⟩ := Option.map_eq_some_iff.mp h
    rw [List.cons_append, List.cons_append, List.cons_append, parseMessages_three _ _ _ _ _ hm hm3, ih ms' h',
      Option.map_map]
    rfl
  | case6 a b hm c rest hm3 => simp [parseMessages, hm, hm3] at h

theorem message2_some (a b : Byte) (i : Instr) (h : message2? a b = some i) :
    encode i = [a, b] ∧ i.isMessage = true ∧ ∀ ctx, i.selectedIn ctx = true := by
  unfold message2? at h
  split at h
  · rename_i hh
    simp at hh h
    subst h
    exact ⟨by simp only [encode]; rw [← hh.1, statusByte_fields, midiData_payloadOf b hh.2], rfl, fun _ => rfl⟩
  · simp at h

theorem message3_some (a b c : Byte) (i : Instr) (h : message3? a b c = some i) :
    encode i = [a, b, c] ∧ i.isMessage = true ∧ ∀ ctx, i.selectedIn ctx = true := by
  unfold message3? at h
  split at h
  · simp at h
  · rename_i hm
    simp at hm
    split at h
    · rename_i hh
      simp at h
      subst h
      refine ⟨?_, rfl, fun _ => rfl⟩
      simp only [encode]
      rw [← hh, statusByte_fields, midiData_payloadOf b hm.1, midiData_payloadOf c hm.2]
    · split at h
      · rename_i hh
        simp at h
        subst h
        refine ⟨?_, rfl, fun _ => rfl⟩
        simp only [encode]
        rw [← hh, statusByte_fields, midiData_payloadOf b hm.1, midiData_payloadOf c hm.2]
      · split at h
        · rename_i hh
          simp at h hh
          subst h
          refine ⟨?_, rfl, fun _ => rfl⟩
          simp only [encode]
          rw [← hh.1, statusByte_fields, midiData_payloadOf b hm.1, hh.2]
        · simp at h

/-! ## Frames and configuration sequences -/

theorem decodeByte_data (st : FcState) (d : Payload) (hd : isDataValue d = true) :
    decodeByte st (wireOf d) = match st with
      | .awaitingCommand => .dataOrphan d
      | .awaitingData => .dataComplete d := by
  have : isCommand d = false := by rw [isCommand_eq_not_isDataValue]; simp [hd]
  cases st <;> simp [decodeByte, decodePayload, this]

/-- A command byte and a data byte decode to the row that R79 selects. -/
theorem decode_frame (ctx : DecodeCtx) (k : Kind) (c : Chan) (d : Payload) (hd : isDataValue d = true) :
    decode ctx [commandOf k c, wireOf d] = .ok (selectFrame ctx.configState ctx.ccMode c k d) := by
  have : channelCommand? (commandOf k c) = some (c, k) := by cases k <;> simp [commandOf]
  simp [decode, message2_commandOf, decodeFrame, this, dataValue_wireOf d hd]

/-- The row R79 selects encodes back to its frame, is selected, and is well-formed. -/
theorem selectFrame_spec (ctx : DecodeCtx) (c : Chan) (k : Kind) (d : Payload) (hd : isDataValue d = true) :
    encode (selectFrame ctx.configState ctx.ccMode c k d) = [commandOf k c, wireOf d] ∧
    (selectFrame ctx.configState ctx.ccMode c k d).selectedIn ctx = true ∧
    (selectFrame ctx.configState ctx.ccMode c k d).wf = true ∧
    (selectFrame ctx.configState ctx.ccMode c k d).isFrameLevel = true := by
  have hr : isReachableCount (highField d) = true := by
    rw [← isDataValue_joinFields _ (lowNibble d), joinFields_fields]; exact hd
  cases k with
  | note =>
    by_cases h : d = 0#7
    · subst h; exact ⟨rfl, rfl, rfl, rfl⟩
    · simp only [selectFrame, h, if_false]; exact ⟨rfl, rfl, by simp [Instr.wf, isNote, hd, h], rfl⟩
  | programChange =>
    by_cases h : d = Config.cfgSentinel
    · subst h; exact ⟨rfl, rfl, rfl, rfl⟩
    · simp only [selectFrame, h, if_false]
      refine ⟨rfl, rfl, ?_, rfl⟩
      show isProgram d = true
      revert hd h; clear * -; revert d; decide
  | controlChange =>
    obtain ⟨f, cs, m⟩ := ctx
    cases cs <;> [cases m; skip; skip; skip] <;>
      simp [selectFrame, encode, Instr.selectedIn, Instr.wf, Instr.isFrameLevel, hd, hr, ccFrame, commandOf]

theorem ccFrames_flatMap (c : Chan) (ds : List Payload) (h : ∀ d ∈ ds, isDataValue d = true) :
    ccFrames c (ds.flatMap (ccFrame c)) = some ds := by
  induction ds with
  | nil => rfl
  | cons d ds ih =>
    simp only [List.flatMap_cons, ccFrame, List.cons_append, List.nil_append, ccFrames, channelCommand_ccCommand, if_true]
    rw [dataValue_wireOf d (h d (by simp)), ih (fun e he => h e (by simp [he]))]
    rfl

theorem ccFrames_some (c : Chan) (bs : List Byte) (ds : List Payload) (h : ccFrames c bs = some ds) :
    bs = ds.flatMap (ccFrame c) ∧ ∀ d ∈ ds, isDataValue d = true := by
  induction bs using ccFrames.induct c generalizing ds with
  | case1 => simp [ccFrames] at h; subst h; simp
  | case2 => simp [ccFrames] at h
  | case3 B1 B2 rest h1 d hd ih =>
    simp [ccFrames, h1, hd] at h
    obtain ⟨ds', h', rfl⟩ := h
    obtain ⟨e, hw⟩ := ih ds' h'
    have h2 := dataValue_some _ _ hd
    refine ⟨by rw [channelCommand_some _ _ _ h1, h2.1, e]; rfl, ?_⟩
    intro x hx
    simp at hx
    rcases hx with rfl | hx
    exacts [h2.2, hw x hx]
  | case4 B1 B2 rest h1 hd => simp [ccFrames, h1, hd] at h
  | case5 B1 B2 rest h1 => simp [ccFrames, h1] at h

/-- The sequence of R78 as the sentinel's frame and CC frames. -/
theorem encode_config (c : Chan) (n : Nibble) (gs : List Payload) (vel : Payload) :
    encode (.config c n gs vel) =
      [pcCommand c, 0xEF#8] ++ (modeChValue gs.length n :: (gs ++ [vel])).flatMap (ccFrame c) := by simp [encode]

theorem isDataValue_modeChValue (m : Nat) (n : Nibble) (h : m ≤ 6) : isDataValue (modeChValue m n) = true := by
  rw [modeChValue, isDataValue_joinFields, isReachableCount]
  interval_cases m <;> rfl

end Sys2Proof
end

