-- ==== Sys2Proof/Laws/PerInstr.lean ====
section
/-! SUPPORT. Statements made per instruction. EncodedLength: how many bytes each row of the opcode table has (R76 for bytes
and frames, R78 for the configuration sequence, R81 to R84 for messages). -/

namespace Sys2Proof.Laws

/-- One byte for a byte-level row, two for a frame and for M.PC, three for the other messages, `6 + 2m` for a
configuration sequence with `m` CC numbers. -/
def EncodedLength.bytes : Instr → Nat
  | .config _ _ gs _ => 6 + 2 * gs.length
  | .mNoteOn .. | .mNoteOff .. | .mCc .. => 3
  | .mPc .. => 2
  | .noteOn .. | .noteOff .. | .ccSingle .. | .ccScaled .. | .cfgModeCh .. | .cfgCc .. | .cfgVel .. | .pc ..
  | .cfgEnter .. => 2
  | .pollNone | .dataOrphan .. | .dataComplete .. | .cmdNote .. | .cmdCc .. | .cmdPc .. | .rsvd | .start | .stop | .tick => 1

/-- The encoder writes as many bytes as the row has. -/
def EncodedLength.Statement (i : Instr) : Prop := (encode i).length = EncodedLength.bytes i

theorem EncodedLength.pollNone : Statement .pollNone := rfl
theorem EncodedLength.dataOrphan (d : Payload) : Statement (.dataOrphan d) := rfl
theorem EncodedLength.dataComplete (d : Payload) : Statement (.dataComplete d) := rfl
theorem EncodedLength.cmdNote (c : Chan) : Statement (.cmdNote c) := rfl
theorem EncodedLength.cmdCc (c : Chan) : Statement (.cmdCc c) := rfl
theorem EncodedLength.cmdPc (c : Chan) : Statement (.cmdPc c) := rfl
theorem EncodedLength.rsvd : Statement .rsvd := rfl
theorem EncodedLength.start : Statement .start := rfl
theorem EncodedLength.stop : Statement .stop := rfl
theorem EncodedLength.tick : Statement .tick := rfl
theorem EncodedLength.noteOn (c : Chan) (d : Payload) : Statement (.noteOn c d) := rfl
theorem EncodedLength.noteOff (c : Chan) : Statement (.noteOff c) := rfl
theorem EncodedLength.ccSingle (c : Chan) (d : Payload) : Statement (.ccSingle c d) := rfl
theorem EncodedLength.ccScaled (c : Chan) (sel : Count) (x : Nibble) : Statement (.ccScaled c sel x) := rfl
theorem EncodedLength.cfgModeCh (c : Chan) (m : Count) (n : Nibble) : Statement (.cfgModeCh c m n) := rfl
theorem EncodedLength.cfgCc (c : Chan) (g : Payload) : Statement (.cfgCc c g) := rfl
theorem EncodedLength.cfgVel (c : Chan) (v : Payload) : Statement (.cfgVel c v) := rfl
theorem EncodedLength.pc (c : Chan) (p : Payload) : Statement (.pc c p) := rfl
theorem EncodedLength.cfgEnter (c : Chan) : Statement (.cfgEnter c) := rfl
theorem EncodedLength.config (c : Chan) (n : Nibble) (gs : List Payload) (vel : Payload) :
    Statement (.config c n gs vel) := by
  have h : (gs.flatMap (ccFrame c)).length = 2 * gs.length := by
    induction gs with
    | nil => rfl
    | cons g gs ih => simp only [List.flatMap_cons, List.length_append, ih, List.length_cons]; simp [ccFrame]; omega
  simp only [Statement, encode, bytes, List.length_append, h]
  simp [ccFrame]; omega
theorem EncodedLength.mNoteOn (n : Nibble) (k v : Payload) : Statement (.mNoteOn n k v) := rfl
theorem EncodedLength.mNoteOff (n : Nibble) (k : Payload) : Statement (.mNoteOff n k) := rfl
theorem EncodedLength.mCc (n : Nibble) (g v : Payload) : Statement (.mCc n g v) := rfl
theorem EncodedLength.mPc (n : Nibble) (p : Payload) : Statement (.mPc n p) := rfl

end Sys2Proof.Laws
end

