-- ==== Sys2Proof/Certificates/Slice0/Obligations.lean ====
section
/-! DEFINITION. The statements for the provers. Each `Obligations.<Name>` says what it states; where it rests on a decision
the spec marks as its own (D<n> of `92_eei_decisions.md`), on general knowledge (G2), or on a choice of the model, its
docstring names it. -/

open Sys2Proof Sys2Proof.Machine

/-! ## Encodings -/

/-- R76, R78, R79, R81 to R84: every well-formed instruction, with every operand value its encoding admits, is what the
decoder reads from the bytes the encoder writes, in every context that selects it. -/
def Obligations.DecodeOfEncodeIsIdentity : Prop :=
  ∀ (i : Instr) (ctx : DecodeCtx), i.wf = true → i.selectedIn ctx = true → decode ctx (encode i) = .ok i

/-- R76 to R79: a string of bytes has at most one reading in a context. What the decoder reads encodes back to the same
bytes (but for `POLL.NONE`, whose bits 6:0 are never sampled), the context selects it, and an inbound one is well-formed. -/
def Obligations.EncodeOfDecodeIsIdentity : Prop :=
  ∀ (ctx : DecodeCtx) (bytes : List Byte) (i : Instr), decode ctx bytes = .ok i → i ≠ .pollNone →
    encode i = bytes ∧ i.selectedIn ctx = true ∧ (i.isMessage = false → i.wf = true)

/-- R71: a received byte is read as a command iff it is at least 0xF0, and as a data byte iff it is below, iff its bits 6:4 are
not 0b111, iff its payload is below 0x70, in both states of the Classifier. -/
def Obligations.ByteClassIsDecidedByTheByte : Prop :=
  ∀ (st : FcState) (B : Byte), 0x80#8 ≤ B →
    ((∃ c, decodeByte st B ∈ [.cmdNote c, .cmdCc c, .cmdPc c, .rsvd, .start, .stop, .tick]) ↔ 0xF0#8 ≤ B) ∧
    ((∃ d, decodeByte st B = .dataOrphan d ∨ decodeByte st B = .dataComplete d) ↔ B < 0xF0#8) ∧
    (B < 0xF0#8 ↔ B.extractLsb' 4 3 ≠ 0b111#3) ∧
    (B < 0xF0#8 ↔ B.truncate 7 < 0x70#7)

/-- R89, R72 to R74: the complete map of eight sampled bits. -/
def Obligations.SampledByteMap : Prop :=
  (∀ (st : FcState) (B : Byte), B < 0x80#8 → decodeByte st B = .pollNone) ∧
  (∀ d : Payload, d < 0x70#7 →
    decodeByte .awaitingCommand (0x80#8 + d.zeroExtend 8) = .dataOrphan d ∧
    decodeByte .awaitingData (0x80#8 + d.zeroExtend 8) = .dataComplete d) ∧
  (∀ (st : FcState) (c : Chan),
    decodeByte st (0xF0#8 + BitVec.ofNat 8 c.val) = .cmdNote c ∧
    decodeByte st (0xF4#8 + BitVec.ofNat 8 c.val) = .cmdCc c ∧
    decodeByte st (0xF8#8 + BitVec.ofNat 8 c.val) = .cmdPc c) ∧
  (∀ st : FcState, decodeByte st 0xFC#8 = .rsvd ∧ decodeByte st 0xFD#8 = .start ∧ decodeByte st 0xFE#8 = .stop ∧
    decodeByte st 0xFF#8 = .tick)

/-- Words the spec writes out (`95_test_vectors.md` S2 to S7, S12, S13, P3, P5) decode to what they stand for. -/
def Obligations.SpecWordsDecode : Prop :=
  decode ⟨.awaitingCommand, .idle, .single⟩ [0xFE#8] = .ok .stop ∧
  decode ⟨.awaitingCommand, .idle, .single⟩ [0xF2#8, 0xBC#8] = .ok (.noteOn 2 0x3C#7) ∧
  decode ⟨.awaitingCommand, .idle, .single⟩ [0xF0#8, 0x80#8] = .ok (.noteOff 0) ∧
  decode ⟨.awaitingCommand, .idle, .single⟩ [0xF5#8, 0xB7#8] = .ok (.ccSingle 1 0x37#7) ∧
  decode ⟨.awaitingCommand, .idle, .scaled⟩ [0xF4#8, 0xD5#8] = .ok (.ccScaled 0 5#3 5#4) ∧
  decode ⟨.awaitingCommand, .idle, .single⟩ [0xFB#8, 0x85#8] = .ok (.pc 3 0x05#7) ∧
  decode ⟨.awaitingCommand, .idle, .single⟩ [0xF9#8, 0xEF#8] = .ok (.cfgEnter 1) ∧
  decode ⟨.awaitingCommand, .awaitMC, .single⟩ [0xF5#8, 0x92#8] = .ok (.cfgModeCh 1 1#3 2#4) ∧
  decode ⟨.awaitingCommand, .idle, .single⟩ [0xF9#8, 0xEF#8, 0xF5#8, 0x92#8, 0xF5#8, 0xCA#8, 0xF5#8, 0xE4#8] =
    .ok (.config 1 2#4 [0x4A#7] 0x64#7) ∧
  decode ⟨.awaitingCommand, .idle, .single⟩ [0xB2#8, 0x4A#8, 0x3E#8] = .ok (.mCc 2#4 0x4A#7 0x3E#7)

/-- R76, R78, R81 to R84: every row has as many bytes as its format says. -/
def Obligations.EncodedLengthPerRow : Prop := ∀ i : Instr, Laws.EncodedLength.Statement i

/-! ## The Link Reader -/

/-- R53: "The first sample of a poll is wire bit 7, the eighth is wire bit 0." -/
def Obligations.PollAssemblesMostSignificantFirst : Prop :=
  ∀ (s : State) (b6 b5 b4 b3 b2 b1 b0 : Bool) (rest : List Bool),
    s.linkIn = true :: b6 :: b5 :: b4 :: b3 :: b2 :: b1 :: b0 :: rest →
    ∃ B : Byte, poll s = (some B, afterPulses 8 rest s) ∧
      B.getLsbD 7 = true ∧ B.getLsbD 6 = b6 ∧ B.getLsbD 5 = b5 ∧ B.getLsbD 4 = b4 ∧ B.getLsbD 3 = b3 ∧
      B.getLsbD 2 = b2 ∧ B.getLsbD 1 = b1 ∧ B.getLsbD 0 = b0

/-- R102, R214: a first sample of 0 ends the poll after one pulse, and the step changes nothing else. -/
def Obligations.FirstSampleGatesThePoll : Prop :=
  ∀ (s : State) (rest : List Bool), s.linkIn = false :: rest →
    poll s = (none, afterPulses 1 rest s) ∧ step s = .next (afterPulses 1 rest s)

/-- R100: whatever the samples are, presented or free, a poll drives one pulse and returns nothing, or drives eight and
returns a byte, and it writes no architectural state. -/
def Obligations.PollDrivesOnePulseOrEight : Prop :=
  ∀ s : State, (∃ rest, poll s = (none, afterPulses 1 rest s)) ∨ ∃ B rest, poll s = (some B, afterPulses 8 rest s)

/-- R104 (marked derived by the spec): every byte a poll returns is in 0x80..0xFF. -/
def Obligations.PolledByteHasFlagSet : Prop :=
  ∀ (s t : State) (B : Byte), poll s = (some B, t) → 0x80#8 ≤ B

/-! ## The step -/

/-- When the bits the remote presents next are those of a byte (R53, R89), the step runs what the decoder reads from that
byte in the Classifier's present state, on the state after the poll. -/
def Obligations.StepRunsTheDecodedByte : Prop :=
  ∀ (s : State) (B : Byte) (rest : List Bool) (i : Instr),
    s.linkIn = byteSamples B ++ rest → decode ⟨s.fcState, .idle, .single⟩ [B] = .ok i →
    step s = exec i (afterPulses (byteSamples B).length rest s)

/-- R120: a step is one poll, and `Classify` of R121 on the payload of the byte it returned. -/
def Obligations.StepIsPollThenClassify : Prop :=
  ∀ s : State, step s = .next
    (match poll s with
      | (none, t) => t
      | (some B, t) => classify (B.truncate 7) t)

/-- R14: no state and no input stops the machine, and no instruction stops in any state. -/
def Obligations.NothingStopsTheMachine : Prop :=
  (∀ s : State, ∃ t, step s = .next t) ∧ ∀ (i : Instr) (s : State), ∃ t, exec i s = .next t

/-- R51, R58, R61, R120: wire bytes the remote presents are received one a step, in order, each exactly once; so many steps
are `Classify` of their payloads in that order (`classifyAll`), and eight pulses a byte. -/
def Obligations.PresentedBytesRunInOrder : Prop :=
  ∀ (bytes : List Byte) (s : State) (rest : List Bool),
    (∀ B ∈ bytes, B.msb = true) → s.linkClock = .high → s.linkIn = bytes.flatMap byteSamples ++ rest →
    core.run bytes.length s = .next (classifyAll bytes (afterPulses (8 * bytes.length) rest s))

/-- R78, R88: the pseudo-instruction CONFIG does what its `6 + 2m` bytes do, received in as many steps; `exec` of it does not
count the polls of its bytes, the run does (the model's reading, log entry 12). -/
def Obligations.ConfigRunsAsItsBytes : Prop :=
  ∀ (c : Chan) (n : Nibble) (gs : List Payload) (vel : Payload) (s : State) (rest : List Bool),
    (Instr.config c n gs vel).wf = true → s.linkClock = .high →
    s.linkIn = (encode (.config c n gs vel)).flatMap byteSamples ++ rest →
    ∃ t, exec (.config c n gs vel) s = .next t ∧
      core.run (6 + 2 * gs.length) s = .next (afterPulses (8 * (6 + 2 * gs.length)) rest t)

/-- From the state `ready` makes (the remote presents the row's byte, and what the row's condition names stands), the next
step runs the row: every well-formed byte-level and frame-level row. How a state comes to run a row is log entry 15. -/
def Obligations.ReadyRowRunsNext : Prop :=
  ∀ (i : Instr) (s : State), i.wf = true → (i.isByteLevel = true ∨ i.isFrameLevel = true) →
    step (ready i s) = exec i (poll (ready i s)).2

/-- A word of the opcode table that the decoder reads as a byte or a frame is run by the next step (log entries 14, 15). -/
def Obligations.TableWordRunsNext : Prop :=
  ∀ (s : State) (nbits w : Nat) (i : Instr), nbits ≤ 16 → decodeTableWord nbits w = some i → i.isMessage = false →
    step (s.withFetchWord nbits w) = exec i (poll (s.withFetchWord nbits w)).2

/-! ## Reset and the invariant -/

/-- R38: the values after reset, with the velocity the open parameter DEFAULT_VELOCITY in 0..0x6F. The values of `started`,
`fc.state`, `currentNote`, `configState`, `remaining` and the clock line are the spec's decisions D3, D4, D5, D21. The latch,
which R38 leaves unspecified, is not stated. -/
def Obligations.ResetLeavesTheStatedValues : Prop :=
  (∀ c, (State.reset.chan c).midiChannel = 0#4 ∧ (State.reset.chan c).ccMode = .single ∧
    (∀ i, (State.reset.chan c).slot i = none) ∧
    (State.reset.chan c).velocity = BitVec.ofNat 7 Config.defaultVelocity.val ∧
    (State.reset.chan c).velocity ≤ 0x6F#7 ∧ (State.reset.chan c).currentNote = 0#7 ∧
    (State.reset.chan c).configState = .idle ∧ (State.reset.chan c).remaining = 0#3) ∧
  State.reset.started = false ∧ State.reset.fcState = .awaitingCommand ∧ State.reset.midiOut = [] ∧
  State.reset.linkClock = .high

/-- R37 (marked derived by the spec): the invariant holds after reset. -/
def Obligations.InvariantHoldsAtReset : Prop := State.reset.Inv

/-- R37 (marked derived by the spec), I1 to I6: every step, whatever the remote presents, keeps the invariant. -/
def Obligations.StepKeepsTheInvariant : Prop :=
  ∀ s t : State, s.Inv → step s = .next t → t.Inv

/-! ## The Frame Classifier -/

/-- R134, for both values of RESERVED_PREEMPTS (decision D9) and any sweep order: the next `fc.state` and latch. -/
def Obligations.ClassifierTransitionTable : Prop :=
  ∀ (preempts : Bool) (order : List Chan) (p : Payload) (s : State), order.Perm Config.channels →
    (p < 0x70#7 → (classifyWith preempts order p s).fcState = .awaitingCommand) ∧
    (0x70#7 ≤ p → p < 0x7C#7 → (classifyWith preempts order p s).fcState = .awaitingData ∧
      (classifyWith preempts order p s).fcChan.val = p.toNat % 4 ∧
      (classifyWith preempts order p s).fcKind =
        (if p < 0x74#7 then .note else if p < 0x78#7 then .controlChange else .programChange)) ∧
    (p = 0x7D#7 ∨ p = 0x7E#7 → (classifyWith preempts order p s).fcState = .awaitingCommand) ∧
    (p = 0x7C#7 ∨ p = 0x7F#7 → (classifyWith preempts order p s).fcState =
      (if preempts then .awaitingCommand else s.fcState)) ∧
    (p < 0x70#7 ∨ 0x7C#7 ≤ p →
      (classifyWith preempts order p s).fcChan = s.fcChan ∧ (classifyWith preempts order p s).fcKind = s.fcKind)

/-- R127, R128, R129: a channel command byte writes the latch and `fc.state`, and nothing else, in every state. -/
def Obligations.ChannelCommandsOnlyLatch : Prop :=
  ∀ (c : Chan) (s : State),
    encode (.cmdNote c) = [0xF0#8 + BitVec.ofNat 8 c.val] ∧
    exec (.cmdNote c) s = .next { s with fcChan := c, fcKind := .note, fcState := .awaitingData } ∧
    encode (.cmdCc c) = [0xF4#8 + BitVec.ofNat 8 c.val] ∧
    exec (.cmdCc c) s = .next { s with fcChan := c, fcKind := .controlChange, fcState := .awaitingData } ∧
    encode (.cmdPc c) = [0xF8#8 + BitVec.ofNat 8 c.val] ∧
    exec (.cmdPc c) s = .next { s with fcChan := c, fcKind := .programChange, fcState := .awaitingData }

/-- R130: a data byte in AwaitingCommand is discarded: the step drives its eight pulses and changes nothing else. -/
def Obligations.OrphanDataIsDiscarded : Prop :=
  ∀ (s : State) (d : Payload) (rest : List Bool), d < 0x70#7 → s.fcState = .awaitingCommand →
    s.linkIn = byteSamples (0x80#8 + d.zeroExtend 8) ++ rest →
    step s = .next (afterPulses 8 rest s) ∧ exec (.dataOrphan d) s = .next s

/-- R125, R126 with RESERVED_PREEMPTS as it is (decision D9), and R106: TICK and RSVD write at most `fc.state`, a poll that
returned no byte writes nothing. -/
def Obligations.BytesWithoutEventWriteAtMostFcState : Prop :=
  ∀ s : State,
    exec .tick s = .next { s with fcState := if Config.reservedPreempts then .awaitingCommand else s.fcState } ∧
    exec .rsvd s = .next { s with fcState := if Config.reservedPreempts then .awaitingCommand else s.fcState } ∧
    exec .pollNone s = .next s

/-- R122 for every command byte; for the two reserved payloads with RESERVED_PREEMPTS true (decision D9): a pending command is
dropped, and the byte is processed exactly as it would be in AwaitingCommand. -/
def Obligations.CommandBytePreemptsPendingCommand : Prop :=
  ∀ (preempts : Bool) (order : List Chan) (p : Payload) (s : State),
    0x70#7 ≤ p → (p = 0x7C#7 ∨ p = 0x7F#7 → preempts = true) → s.fcState = .awaitingData →
    classifyWith preempts order p s = classifyWith preempts order p { s with fcState := .awaitingCommand }

/-- R132 (decision D13: the gate covers the Configuration Engine too): while stopped, a completed frame of any kind changes
`fc.state` only. -/
def Obligations.StoppedFramesAreDropped : Prop :=
  ∀ (i : Instr) (s : State), (i.isFrameLevel = true ∨ ∃ d, i = .dataComplete d) → s.started = false →
    exec i s = .next { s with fcState := .awaitingCommand }

/-- R79, R133: the data byte of a pending command runs the frame-level row the table selects from the latch, the data value and
the addressed channel's state; it always completes. -/
def Obligations.DataByteRunsTheSelectedFrame : Prop :=
  ∀ (s : State) (d : Payload),
    (s.fcKind = .note → d ≠ 0#7 → exec (.dataComplete d) s = exec (.noteOn s.fcChan d) s) ∧
    (s.fcKind = .note → d = 0#7 → exec (.dataComplete d) s = exec (.noteOff s.fcChan) s) ∧
    (s.fcKind = .programChange → d = 0x6F#7 → exec (.dataComplete d) s = exec (.cfgEnter s.fcChan) s) ∧
    (s.fcKind = .programChange → d ≠ 0x6F#7 → exec (.dataComplete d) s = exec (.pc s.fcChan d) s) ∧
    (s.fcKind = .controlChange → (s.chan s.fcChan).configState = .awaitMC →
      exec (.dataComplete d) s = exec (.cfgModeCh s.fcChan (d.extractLsb' 4 3) (d.extractLsb' 0 4)) s) ∧
    (s.fcKind = .controlChange → (s.chan s.fcChan).configState = .awaitCC →
      exec (.dataComplete d) s = exec (.cfgCc s.fcChan d) s) ∧
    (s.fcKind = .controlChange → (s.chan s.fcChan).configState = .awaitVel →
      exec (.dataComplete d) s = exec (.cfgVel s.fcChan d) s) ∧
    (s.fcKind = .controlChange → (s.chan s.fcChan).configState = .idle → (s.chan s.fcChan).ccMode = .single →
      exec (.dataComplete d) s = exec (.ccSingle s.fcChan d) s) ∧
    (s.fcKind = .controlChange → (s.chan s.fcChan).configState = .idle → (s.chan s.fcChan).ccMode = .scaled →
      exec (.dataComplete d) s = exec (.ccScaled s.fcChan (d.extractLsb' 4 3) (d.extractLsb' 0 4)) s) ∧
    ∃ t, exec (.dataComplete d) s = .next t

/-- R123 (decisions D10, D12): START abandons every channel's sequence, sets `started`, emits nothing, and keeps the rest. -/
def Obligations.StartAbandonsEverySequence : Prop :=
  ∀ s : State, ∃ t, exec .start s = .next t ∧ t.started = true ∧ t.fcState = .awaitingCommand ∧ t.midiOut = s.midiOut ∧
    (∀ c, t.chan c = { s.chan c with configState := .idle }) ∧
    t.fcChan = s.fcChan ∧ t.fcKind = s.fcKind ∧ t.linkClock = s.linkClock ∧ t.pulses = s.pulses ∧ t.linkIn = s.linkIn

/-- R124 (decisions D11, D27; byte order within a message: G2): STOP emits the Note Off of every channel with a sounding note,
and only those, in some fixed order of the channels, silences and abandons every channel, clears `started`, and keeps the
rest. -/
def Obligations.StopSilencesEveryChannel : Prop :=
  ∃ order : List Chan, order.Perm [0, 1, 2, 3] ∧
    ∀ s : State, ∃ t, exec .stop s = .next t ∧ t.started = false ∧ t.fcState = .awaitingCommand ∧
      t.midiOut = s.midiOut ++ order.flatMap (fun c => (s.chan c).noteOffBytes) ∧
      (∀ c, t.chan c = { s.chan c with currentNote := 0#7, configState := .idle }) ∧
      t.fcChan = s.fcChan ∧ t.fcKind = s.fcKind ∧ t.linkClock = s.linkClock ∧ t.pulses = s.pulses ∧ t.linkIn = s.linkIn

/-- R123, R124: "idempotent if already started", "idempotent if already stopped" (decision D10 for what a second Start is). -/
def Obligations.StartAndStopAreIdempotent : Prop :=
  ∀ s t : State, (exec .start s = .next t → exec .start t = .next t) ∧ (exec .stop s = .next t → exec .stop t = .next t)

/-- R63: after a Stop no note sounds, no channel is in a configuration sequence, and a further Stop emits nothing. -/
def Obligations.NothingSoundsAfterStop : Prop :=
  ∀ s t u : State, exec .stop s = .next t → exec .stop t = .next u →
    (∀ c, (t.chan c).currentNote = 0#7 ∧ (t.chan c).configState = .idle) ∧ u.midiOut = t.midiOut

/-! ## The Channel Configuration Engine -/

/-- R151, R159 (decisions D18, D25): from any configuration state the sentinel gives AwaitMC, writes nothing else and emits
nothing. -/
def Obligations.SentinelEntersConfiguration : Prop :=
  ∀ (c : Chan) (s : State), s.started = true →
    encode (.cfgEnter c) = [0xF8#8 + BitVec.ofNat 8 c.val, 0xEF#8] ∧
    exec (.cfgEnter c) s = .next (afterFrame s c [] { s.chan c with configState := .awaitMC })

/-- R153 (decisions D14, D15, D16, D32; byte order within a message: G2): the mode/channel byte. -/
def Obligations.ModeChannelByteRewritesSettings : Prop :=
  ∀ (c : Chan) (m : Count) (n : Nibble) (s : State), s.started = true →
    ∃ r : Channel,
      exec (.cfgModeCh c m n) s =
        .next (afterFrame s c (if n = (s.chan c).midiChannel then [] else (s.chan c).noteOffBytes) r) ∧
      r.midiChannel = n ∧ (∀ i, r.slot i = none) ∧ r.remaining = m ∧ r.velocity = (s.chan c).velocity ∧
      r.currentNote = (if n = (s.chan c).midiChannel then (s.chan c).currentNote else 0#7) ∧
      (m = 0#3 → r.ccMode = (s.chan c).ccMode ∧ r.configState = .awaitVel) ∧
      (m = 1#3 → r.ccMode = .single ∧ r.configState = .awaitCC) ∧
      (2#3 ≤ m → r.ccMode = .scaled ∧ r.configState = .awaitCC)

/-- R154: with `remaining = r` in 1..7, the byte fills slot `r - 1`, the count goes down by one, and at 0 the velocity byte is
awaited; nothing is emitted and nothing else is written. -/
def Obligations.CcNumberByteFillsItsSlot : Prop :=
  ∀ (c : Chan) (g : Payload) (s : State), s.started = true → (s.chan c).remaining ≠ 0#3 →
    encode (.cfgCc c g) = [0xF4#8 + BitVec.ofNat 8 c.val, 0x80#8 ||| g.zeroExtend 8] ∧
    ∃ r : Channel, exec (.cfgCc c g) s = .next (afterFrame s c [] r) ∧
      (∀ i : Slot, r.slot i = if i.val + 1 = (s.chan c).remaining.toNat then some g else (s.chan c).slot i) ∧
      r.remaining.toNat + 1 = (s.chan c).remaining.toNat ∧
      r.configState = (if (s.chan c).remaining = 1#3 then .awaitVel else (s.chan c).configState) ∧
      r.midiChannel = (s.chan c).midiChannel ∧ r.ccMode = (s.chan c).ccMode ∧ r.velocity = (s.chan c).velocity ∧
      r.currentNote = (s.chan c).currentNote

/-- The model's choice, log entry 9: at `remaining = 0`, which no run reaches while AwaitCC, the decrement of R154 is a free
value; the instruction runs, and everything it computes from the count is computed from that value. -/
def Obligations.CcNumberByteAtCountZeroStillRuns : Prop :=
  ∀ (c : Chan) (g : Payload) (s : State), s.started = true → (s.chan c).remaining = 0#3 →
    ∃ (left : Count) (r : Channel), exec (.cfgCc c g) s = .next (afterFrame s c [] r) ∧
      (∀ i : Slot, r.slot i = if i.val = left.toNat then some g else (s.chan c).slot i) ∧ r.remaining = left ∧
      r.configState = (if left = 0#3 then .awaitVel else (s.chan c).configState) ∧
      r.midiChannel = (s.chan c).midiChannel ∧ r.ccMode = (s.chan c).ccMode ∧ r.velocity = (s.chan c).velocity ∧
      r.currentNote = (s.chan c).currentNote

/-- R155: the velocity byte is stored unscaled and ends the sequence; nothing is emitted and nothing else is written. -/
def Obligations.VelocityByteEndsTheSequence : Prop :=
  ∀ (c : Chan) (v : Payload) (s : State), s.started = true →
    encode (.cfgVel c v) = [0xF4#8 + BitVec.ofNat 8 c.val, 0x80#8 ||| v.zeroExtend 8] ∧
    exec (.cfgVel c v) s = .next (afterFrame s c [] { s.chan c with velocity := v, configState := .idle })

/-- R156: a Note or an ordinary Program Change first forces the channel to Idle and is then processed as it would be on
the channel as it now stands; the other channels are untouched. -/
def Obligations.NoteAndProgramChangeAbandonFirst : Prop :=
  ∀ (c : Chan) (i : Instr) (s : State), s.started = true →
    ((∃ d, i = .noteOn c d) ∨ i = .noteOff c ∨ ∃ p, i = .pc c p) →
    exec i s = exec i (s.setChan c { s.chan c with configState := .idle }) ∧
    ∃ t, exec i s = .next t ∧ (t.chan c).configState = .idle ∧ (s.chan c).sameSettings (t.chan c) ∧
      ∀ c', c' ≠ c → t.chan c' = s.chan c'

/-- R165 (marked derived by the spec; decisions D14, D15, D16; byte order within a message: G2): a complete configuration
sequence determines the channel's settings whatever they were, emits at most the forced Note Off, and touches no other
channel. That `exec` of the pseudo-instruction leaves `pulses` and `linkIn` as they were, not counting the polls of its
bytes, is the model's reading, log entry 12. -/
def Obligations.ConfigSequenceDeterminesTheSettings : Prop :=
  ∀ (c : Chan) (n : Nibble) (gs : List Payload) (vel : Payload) (s : State),
    (Instr.config c n gs vel).wf = true → s.started = true →
    ∃ t, exec (.config c n gs vel) s = .next t ∧
      (t.chan c).midiChannel = n ∧ (t.chan c).velocity = vel ∧ (t.chan c).configState = .idle ∧
      (∀ i : Slot, (t.chan c).slot i = if i.val < gs.length then gs[gs.length - 1 - i.val]? else none) ∧
      (t.chan c).ccMode =
        (if gs.length = 0 then (s.chan c).ccMode else if gs.length = 1 then .single else .scaled) ∧
      (t.chan c).currentNote = (if n = (s.chan c).midiChannel then (s.chan c).currentNote else 0#7) ∧
      (t.chan c).remaining = 0#3 ∧
      t.midiOut = s.midiOut ++ (if n = (s.chan c).midiChannel then [] else (s.chan c).noteOffBytes) ∧
      (∀ c', c' ≠ c → t.chan c' = s.chan c') ∧
      t.started = true ∧ t.fcState = .awaitingCommand ∧ t.fcChan = c ∧ t.fcKind = .controlChange ∧
      t.linkClock = s.linkClock ∧ t.pulses = s.pulses ∧ t.linkIn = s.linkIn

/-- R165 (marked derived by the spec): the same sequence again changes nothing at all and so emits nothing (that `exec` does not
count the polls of its bytes: log entry 12). -/
def Obligations.RepeatedConfigSequenceChangesNothing : Prop :=
  ∀ (c : Chan) (n : Nibble) (gs : List Payload) (vel : Payload) (s t u : State),
    (Instr.config c n gs vel).wf = true → s.started = true →
    exec (.config c n gs vel) s = .next t → exec (.config c n gs vel) t = .next u → u = t

/-- R132, S16 (decision D13): a configuration sequence sent while stopped is lost: it changes the Classifier's state
and latch only (that `exec` does not count the polls of its bytes: log entry 12). -/
def Obligations.ConfigSequenceWhileStoppedIsLost : Prop :=
  ∀ (c : Chan) (n : Nibble) (gs : List Payload) (vel : Payload) (s : State),
    (Instr.config c n gs vel).wf = true → s.started = false →
    exec (.config c n gs vel) s =
      .next { s with fcState := .awaitingCommand, fcChan := c, fcKind := .controlChange }

/-- R164: "Only CFG.MODECH sets `remaining`; CFG.CC only decrements it". Both are the data byte of a ControlChange command
pending for the channel, while started; every other received payload, in every state, leaves the count as it was. The premise
is part of I4 (`Channel.CountOk.counting`, kept by StepKeepsTheInvariant): while AwaitCC the count is not 0. -/
def Obligations.CountIsOnlySetByModeChannelByte : Prop :=
  ∀ (p : Payload) (s : State) (c : Chan),
    ((s.chan c).configState = .awaitCC → (s.chan c).remaining ≠ 0#3) →
    ((classify p s).chan c).remaining =
      if p < 0x70#7 ∧ s.fcState = .awaitingData ∧ s.started = true ∧ s.fcChan = c ∧ s.fcKind = .controlChange then
        match (s.chan c).configState with
        | .awaitMC => p.extractLsb' 4 3
        | .awaitCC => BitVec.ofNat 3 ((s.chan c).remaining.toNat - 1)
        | .idle | .awaitVel => (s.chan c).remaining
      else (s.chan c).remaining

/-- R161: "Events that abandon or advance the sequence of channel `c` are exactly: a dispatched frame addressed to `c`, START,
STOP." Nothing else touches the channel's record at all. -/
def Obligations.ChannelIsTouchedOnlyByItsFramesStartStop : Prop :=
  ∀ (p : Payload) (s : State) (c : Chan), (classify p s).chan c ≠ s.chan c →
    p = 0x7D#7 ∨ p = 0x7E#7 ∨ (p < 0x70#7 ∧ s.fcState = .awaitingData ∧ s.started = true ∧ s.fcChan = c)

/-- R26: settings are written by the Configuration Engine only: by a ControlChange frame dispatched to a channel that is in a
configuration sequence. -/
def Obligations.SettingsAreWrittenOnlyByConfiguration : Prop :=
  ∀ (p : Payload) (s : State) (c : Chan), ¬ (s.chan c).sameSettings ((classify p s).chan c) →
    p < 0x70#7 ∧ s.fcState = .awaitingData ∧ s.started = true ∧ s.fcChan = c ∧ s.fcKind = .controlChange ∧
      (s.chan c).configState ≠ .idle

/-! ## The Translator -/

/-- R181: on 0..0x6F `scale111` is the exact product divided with truncation, stays in 0..0x7F, is strictly increasing, and skips
sixteen MIDI values. -/
def Obligations.Scale111IsTheTruncatedProduct : Prop :=
  ∀ v : Payload, v ≤ 0x6F#7 →
    (scale111 v).toNat = v.toNat * 0x7F / 0x6F ∧ scale111 v ≤ 0x7F#8 ∧
    (∀ u : Payload, u < v → scale111 u < scale111 v) ∧
    (scale111 v).toNat ∉ [7, 15, 23, 31, 39, 47, 55, 63, 71, 79, 87, 95, 103, 111, 119, 126]

/-- R182: `scale15` is the exact product divided with truncation, and stays in 0..0x7F. -/
def Obligations.Scale15IsTheTruncatedProduct : Prop :=
  ∀ x : Nibble, (scale15 x).toNat = x.toNat * 0x7F / 0xF ∧ scale15 x ≤ 0x7F#8

/-- R185 (decision D26; byte order within a message: G2; velocity above 0x6F: the third byte is free, log entry 8): NOTE.ON
stops the sounding note, emits the Note On with the rescaled velocity, records the note, abandons, and keeps the rest. -/
def Obligations.NoteOnSoundsTheNote : Prop :=
  ∀ (c : Chan) (d : Payload) (s : State), isNote d = true → s.started = true →
    ∃ b : Byte, ((s.chan c).velocity ≤ 0x6F#7 → b.toNat = (s.chan c).velocity.toNat * 0x7F / 0x6F) ∧
      exec (.noteOn c d) s = .next (afterFrame s c
        ((s.chan c).noteOffBytes ++ [statusByte 0x90#8 (s.chan c).midiChannel, midiData d, b])
        { s.chan c with currentNote := d, configState := .idle })

/-- R186 (byte order within a message: G2): NOTE.OFF emits exactly the sounding note's Note Off, or nothing, silences and
abandons, and keeps the rest. -/
def Obligations.NoteOffStopsTheNote : Prop :=
  ∀ (c : Chan) (s : State), s.started = true →
    exec (.noteOff c) s = .next (afterFrame s c (s.chan c).noteOffBytes
      { s.chan c with currentNote := 0#7, configState := .idle })

/-- R187 (byte order within a message: G2): Single mode. -/
def Obligations.SingleModeControlChange : Prop :=
  ∀ (c : Chan) (d : Payload) (s : State), isDataValue d = true → s.started = true →
    ∃ b : Byte, b.toNat = d.toNat * 0x7F / 0x6F ∧
      exec (.ccSingle c d) s = .next (afterFrame s c
        (match (s.chan c).slot 0 with
          | none => []
          | some g => [statusByte 0xB0#8 (s.chan c).midiChannel, midiData g, b])
        (s.chan c))

/-- R188 (decision D17 for selector 7; byte order within a message: G2): Scaled mode. -/
def Obligations.ScaledModeControlChange : Prop :=
  ∀ (c : Chan) (sel : Count) (x : Nibble) (s : State), s.started = true →
    ∃ b : Byte, b.toNat = x.toNat * 0x7F / 0xF ∧
      exec (.ccScaled c sel x) s = .next (afterFrame s c
        (if h : sel.toNat < 7 then
          match (s.chan c).slot ⟨sel.toNat, h⟩ with
            | none => []
            | some g => [statusByte 0xB0#8 (s.chan c).midiChannel, midiData g, b]
        else [])
        (s.chan c))

/-- R213: a ControlChange whose resolved slot is UNSET changes no state but the Classifier's and emits nothing; a slot that
holds controller 0 is not UNSET. -/
def Obligations.UnsetSlotSuppressesOutput : Prop :=
  ∀ (c : Chan) (d : Payload) (sel : Count) (x : Nibble) (s : State), s.started = true →
    ((s.chan c).slot 0 = none → exec (.ccSingle c d) s = .next { s with fcState := .awaitingCommand }) ∧
    (∀ i : Slot, i.val = sel.toNat → (s.chan c).slot i = none →
      exec (.ccScaled c sel x) s = .next { s with fcState := .awaitingCommand }) ∧
    ((s.chan c).slot 0 = some 0#7 → ∃ t, exec (.ccSingle c d) s = .next t ∧ t.midiOut.length = s.midiOut.length + 3)

/-- R189 (byte order within a message: G2): PC emits two bytes, unscaled, abandons, and keeps the rest. -/
def Obligations.ProgramChangeEmitsItsNumber : Prop :=
  ∀ (c : Chan) (p : Payload) (s : State), isProgram p = true → s.started = true →
    exec (.pc c p) s = .next (afterFrame s c [statusByte 0xC0#8 (s.chan c).midiChannel, midiData p]
      { s.chan c with configState := .idle })

/-- R80 to R84, R183 (byte order within a message: G2; an outbound message as an instruction is the act of emitting it, log
entry 13): each message is its bytes, appended to `midi_out`; nothing else changes. -/
def Obligations.MessagesAreEmittedWhole : Prop :=
  ∀ (n : Nibble) (k v : Payload) (s : State),
    exec (.mNoteOn n k v) s = .next { s with midiOut := s.midiOut ++ [0b1001#4 ++ n, 0#1 ++ k, 0#1 ++ v] } ∧
    exec (.mNoteOff n k) s = .next { s with midiOut := s.midiOut ++ [0b1000#4 ++ n, 0#1 ++ k, 0b01000000#8] } ∧
    exec (.mCc n k v) s = .next { s with midiOut := s.midiOut ++ [0b1011#4 ++ n, 0#1 ++ k, 0#1 ++ v] } ∧
    exec (.mPc n k) s = .next { s with midiOut := s.midiOut ++ [0b1100#4 ++ n, 0#1 ++ k] }

/-- R81 to R84, R185 to R189 (byte order within a message: G2): every well-formed outbound message whose value the rescaling
can produce is emitted by a single step: the next step from the state `ready` makes appends exactly its bytes. That an
outbound message is an instruction, and which state `ready` makes for it, are the model's choice, log entries 13 and 15. -/
def Obligations.EveryProducibleMessageIsEmittedByAStep : Prop :=
  ∀ (m : Instr) (s : State), m.isMessage = true → m.wf = true →
    (∀ n k v, m = .mNoteOn n k v ∨ m = .mCc n k v → ∃ u : Nat, u < 0x70 ∧ u * 0x7F / 0x6F = v.toNat) →
    ∃ t, step (ready m s) = .next t ∧ t.midiOut = s.midiOut ++ encode m

/-! ## The whole machine -/

/-- R36, R58: a step only appends to the output: nothing when no byte came, at most 12 bytes, and at most 6 unless the byte was
Stop. -/
def Obligations.OutputOnlyGrowsAndIsBounded : Prop :=
  ∀ s : State, ∃ t bs, step s = .next t ∧ t.midiOut = s.midiOut ++ bs ∧ bs.length ≤ 12 ∧
    ((poll s).1 ≠ some 0xFE#8 → bs.length ≤ 6) ∧ ((poll s).1 = none → bs = [])

/-- R132, S16 (decision D13), from a stopped state that meets R37 I2: a step emits nothing and changes no channel. -/
def Obligations.SilentWhileStopped : Prop :=
  ∀ s t : State, s.started = false → (∀ c, (s.chan c).currentNote = 0#7 ∧ (s.chan c).configState = .idle) →
    step s = .next t → t.midiOut = s.midiOut ∧ ∀ c, t.chan c = s.chan c

/-- R31: `started` is set by START, cleared by STOP, and written by nothing else. -/
def Obligations.StartedIsWrittenOnlyByStartAndStop : Prop :=
  ∀ (p : Payload) (s : State),
    (classify p s).started = (if p = 0x7D#7 then true else if p = 0x7E#7 then false else s.started)

/-- R66, R190: what a byte other than Start and Stop emits and leaves on the addressed channel depends on that channel, `started`
and the Classifier's state only; the other channels neither change nor matter. -/
def Obligations.ChannelsDoNotInteract : Prop :=
  ∀ (p : Payload) (s u : State), p ≠ 0x7D#7 → p ≠ 0x7E#7 → s.started = u.started → s.fcState = u.fcState →
    s.fcChan = u.fcChan → s.fcKind = u.fcKind → s.chan s.fcChan = u.chan s.fcChan →
    (∃ bs, (classify p s).midiOut = s.midiOut ++ bs ∧ (classify p u).midiOut = u.midiOut ++ bs) ∧
    (classify p s).chan s.fcChan = (classify p u).chan s.fcChan ∧
    ∀ c, c ≠ s.fcChan → (classify p s).chan c = s.chan c

/-- R136 (a) (marked derived by the spec): over any number of steps `fc.state` depends only on what the remote presents, never on
`started`, the latch or the channels. -/
def Obligations.FramingDependsOnlyOnTheBytes : Prop :=
  ∀ (k : Nat) (s u : State), s.fcState = u.fcState → s.linkIn = u.linkIn → s.pulses = u.pulses →
    ∃ s' u', core.run k s = .next s' ∧ core.run k u = .next u' ∧
      s'.fcState = u'.fcState ∧ s'.linkIn = u'.linkIn ∧ s'.pulses = u'.pulses
end

