-- ==== Sys2Proof/Laws/Ops.lean ====
section
/-! SUPPORT. What each operation on one channel can do, said once: it appends bytes to `midiOut` and rewrites that channel's
record, nothing else, and both depend on that record only. -/

namespace Sys2Proof.Machine

/-- The shape of every operation on one channel: `bs` appended to the output, `r` written to channel `c`. -/
def channelAct (c : Chan) (bs : List Byte) (r : Channel) (s : State) : State :=
  ({ s with midiOut := s.midiOut ++ bs }).setChan c r

@[simp] theorem channelAct_chan_same (c : Chan) (bs : List Byte) (r : Channel) (s : State) :
    (channelAct c bs r s).chan c = r := by simp [channelAct]

theorem channelAct_chan (c c' : Chan) (bs : List Byte) (r : Channel) (s : State) :
    (channelAct c bs r s).chan c' = if c' = c then r else s.chan c' := by
  simp [channelAct, chan_setChan]; rfl

theorem channelAct_chan_ne (c c' : Chan) (bs : List Byte) (r : Channel) (s : State) (h : c' ≠ c) :
    (channelAct c bs r s).chan c' = s.chan c' := by simp [channelAct_chan, h]

@[simp] theorem channelAct_midiOut (c : Chan) (bs : List Byte) (r : Channel) (s : State) :
    (channelAct c bs r s).midiOut = s.midiOut ++ bs := rfl
@[simp] theorem channelAct_started (c : Chan) (bs : List Byte) (r : Channel) (s : State) :
    (channelAct c bs r s).started = s.started := rfl
@[simp] theorem channelAct_fcState (c : Chan) (bs : List Byte) (r : Channel) (s : State) :
    (channelAct c bs r s).fcState = s.fcState := rfl
@[simp] theorem channelAct_fcChan (c : Chan) (bs : List Byte) (r : Channel) (s : State) :
    (channelAct c bs r s).fcChan = s.fcChan := rfl
@[simp] theorem channelAct_fcKind (c : Chan) (bs : List Byte) (r : Channel) (s : State) :
    (channelAct c bs r s).fcKind = s.fcKind := rfl
@[simp] theorem channelAct_linkClock (c : Chan) (bs : List Byte) (r : Channel) (s : State) :
    (channelAct c bs r s).linkClock = s.linkClock := rfl
@[simp] theorem channelAct_pulses (c : Chan) (bs : List Byte) (r : Channel) (s : State) :
    (channelAct c bs r s).pulses = s.pulses := rfl
@[simp] theorem channelAct_linkIn (c : Chan) (bs : List Byte) (r : Channel) (s : State) :
    (channelAct c bs r s).linkIn = s.linkIn := rfl

/-- Two acts on one channel are one: the bytes in order, the later record. -/
@[simp] theorem channelAct_channelAct (c : Chan) (bs bs' : List Byte) (r r' : Channel) (s : State) :
    channelAct c bs' r' (channelAct c bs r s) = channelAct c (bs ++ bs') r' s := by
  simp [channelAct, State.setChan]

/-- An act that writes back the record it found and emits nothing changes nothing. -/
@[simp] theorem channelAct_nil (c : Chan) (s : State) : channelAct c [] (s.chan c) s = s := by
  simp [channelAct]

theorem setChan_eq_act (c : Chan) (r : Channel) (s : State) : s.setChan c r = channelAct c [] r s := by
  simp [channelAct]

theorem emits_eq_act (c : Chan) (bs : List Byte) (s : State) :
    ({ s with midiOut := s.midiOut ++ bs } : State) = channelAct c bs (s.chan c) s := by
  unfold channelAct
  rw [show s.chan c = ({ s with midiOut := s.midiOut ++ bs } : State).chan c from rfl, setChan_chan]

/-! ## The message helpers (R183) -/

theorem emitNoteOn_eq (n : Nibble) (k : Payload) (v : Byte) (s : State) :
    emitNoteOn n k v s = { s with midiOut := s.midiOut ++ [statusByte Config.stNoteOn n, midiData k, v] } := by
  simp [emitNoteOn, emit]

theorem emitNoteOff_eq (n : Nibble) (k : Payload) (s : State) :
    emitNoteOff n k s =
      { s with midiOut := s.midiOut ++ [statusByte Config.stNoteOff n, midiData k, Config.noteOffVelocity] } := by
  simp [emitNoteOff, emit]

theorem emitCc_eq (n : Nibble) (g : Payload) (v : Byte) (s : State) :
    emitCc n g v s = { s with midiOut := s.midiOut ++ [statusByte Config.stCc n, midiData g, v] } := by
  simp [emitCc, emit]

theorem emitPc_eq (n : Nibble) (p : Payload) (s : State) :
    emitPc n p s = { s with midiOut := s.midiOut ++ [statusByte Config.stPc n, midiData p] } := by
  simp [emitPc, emit]

/-! ## The operations as acts -/

theorem stopNote_eq (c : Chan) (s : State) :
    stopNote c s = channelAct c (s.chan c).noteOffBytes { s.chan c with currentNote := 0#7 } s := by
  by_cases h : (s.chan c).currentNote = 0#7
  · have hr : ({ s.chan c with currentNote := 0#7 } : Channel) = s.chan c := by
      generalize s.chan c = r at h ⊢
      cases r; simp_all
    simp [stopNote, Channel.noteOffBytes, h, hr]
  · simp [stopNote, Channel.noteOffBytes, h, emitNoteOff_eq, channelAct, Config.stNoteOff, Config.noteOffVelocity]

theorem abandon_eq (c : Chan) (s : State) : abandon c s = channelAct c [] { s.chan c with configState := .idle } s :=
  setChan_eq_act ..

theorem noteOn_eq (c : Chan) (d : Payload) (s : State) :
    noteOn c d s = channelAct c
      ((s.chan c).noteOffBytes ++
        [statusByte Config.stNoteOn (s.chan c).midiChannel, midiData d, scale111 (s.chan c).velocity])
      { s.chan c with currentNote := d } s := by
  simp only [noteOn, stopNote_eq, setChan_eq_act, emitNoteOn_eq, channelAct_channelAct, channelAct_chan_same]
  rw [emits_eq_act c]
  simp

theorem noteOff_eq (c : Chan) (s : State) :
    noteOff c s = channelAct c (s.chan c).noteOffBytes { s.chan c with currentNote := 0#7 } s := stopNote_eq c s

/-- The bytes of a ControlChange on a record, given the resolved controller number and the value (R187, R188). -/
def ccBytes (r : Channel) (g : Option Payload) (v : Byte) : List Byte :=
  match g with
  | none => []
  | some g => [statusByte Config.stCc r.midiChannel, midiData g, v]

theorem ccSingle_eq (c : Chan) (d : Payload) (s : State) :
    ccSingle c d s = channelAct c (ccBytes (s.chan c) ((s.chan c).slot 0) (scale111 d)) (s.chan c) s := by
  unfold ccSingle
  cases h : (s.chan c).slot 0 with
  | none => simp [ccBytes]
  | some g => simp only [ccBytes, emitCc_eq, emits_eq_act c]

theorem ccScaled_eq (c : Chan) (sel : Count) (x : Nibble) (s : State) :
    ccScaled c sel x s = channelAct c (ccBytes (s.chan c) (resolveSlot (s.chan c) sel) (scale15 x)) (s.chan c) s := by
  unfold ccScaled
  cases h : resolveSlot (s.chan c) sel with
  | none => simp [ccBytes]
  | some g => simp only [ccBytes, emitCc_eq, emits_eq_act c]

theorem progChange_eq (c : Chan) (p : Payload) (s : State) :
    progChange c p s =
      channelAct c [statusByte Config.stPc (s.chan c).midiChannel, midiData p] (s.chan c) s := by
  simp only [progChange, emitPc_eq, emits_eq_act c]

theorem cfgEnter_eq (c : Chan) (s : State) :
    cfgEnter c s = channelAct c [] { s.chan c with configState := .awaitMC } s := setChan_eq_act ..

/-- The bytes CFG.MODECH emits: the forced Note Off if the MIDI channel changes (R153). -/
def modeChBytes (n : Nibble) (r : Channel) : List Byte := if n = r.midiChannel then [] else r.noteOffBytes

/-- The record CFG.MODECH finds after the forced Note Off (R153). -/
def modeChBase (n : Nibble) (r : Channel) : Channel := if n = r.midiChannel then r else { r with currentNote := 0#7 }

theorem cfgModeCh_eq (c : Chan) (m : Count) (n : Nibble) (s : State) :
    cfgModeCh c m n s =
      channelAct c (modeChBytes n (s.chan c)) (modeChRecord m n (modeChBase n (s.chan c))) s := by
  by_cases h : n = (s.chan c).midiChannel
  · simp [cfgModeCh, modeChBytes, modeChBase, ← h, setChan_eq_act]
  · simp [cfgModeCh, modeChBytes, modeChBase, h, stopNote_eq, setChan_eq_act]

theorem cfgCc_eq (c : Chan) (g : Payload) (s : State) :
    cfgCc c g s = channelAct c [] (cfgCcRecord g (s.chan c)) s := setChan_eq_act ..

theorem cfgVel_eq (c : Chan) (v : Payload) (s : State) :
    cfgVel c v s = channelAct c [] { s.chan c with velocity := v, configState := .idle } s := setChan_eq_act ..

/-! ## Dispatch (R133) as one act -/

/-- The bytes a dispatched frame emits, from the addressed channel's record. -/
def frameBytes (k : Kind) (d : Payload) (r : Channel) : List Byte :=
  match k with
  | .note =>
    if d = 0#7 then r.noteOffBytes
    else r.noteOffBytes ++ [statusByte Config.stNoteOn r.midiChannel, midiData d, scale111 r.velocity]
  | .programChange => if d = Config.cfgSentinel then [] else [statusByte Config.stPc r.midiChannel, midiData d]
  | .controlChange =>
    match r.configState with
    | .idle =>
      match r.ccMode with
      | .single => ccBytes r (r.slot 0) (scale111 d)
      | .scaled => ccBytes r (resolveSlot r (highField d)) (scale15 (lowNibble d))
    | .awaitMC => modeChBytes (lowNibble d) r
    | .awaitCC => []
    | .awaitVel => []

/-- The addressed channel's record after a dispatched frame. -/
def frameRecord (k : Kind) (d : Payload) (r : Channel) : Channel :=
  match k with
  | .note => { r with currentNote := d, configState := .idle }
  | .programChange =>
    if d = Config.cfgSentinel then { r with configState := .awaitMC } else { r with configState := .idle }
  | .controlChange =>
    match r.configState with
    | .idle => r
    | .awaitMC => modeChRecord (highField d) (lowNibble d) (modeChBase (lowNibble d) r)
    | .awaitCC => cfgCcRecord d r
    | .awaitVel => { r with velocity := d, configState := .idle }

/-- A dispatched frame is one act on the addressed channel, and depends on that channel's record only (R66, R133). -/
theorem dispatch_eq (c : Chan) (k : Kind) (d : Payload) (s : State) :
    dispatch c k d s = channelAct c (frameBytes k d (s.chan c)) (frameRecord k d (s.chan c)) s := by
  cases k with
  | note =>
    by_cases h : d = 0#7
    · subst h
      simp only [dispatch, frameBytes, frameRecord, if_true, noteOff_eq, abandon_eq, channelAct_chan_same,
        channelAct_channelAct]
      rfl
    · simp only [dispatch, frameBytes, frameRecord, if_neg h, noteOn_eq, abandon_eq, channelAct_chan_same,
        channelAct_channelAct]
      rfl
  | programChange =>
    by_cases h : d = Config.cfgSentinel
    · simp [dispatch, frameBytes, frameRecord, h, cfgEnter_eq]
    · simp [dispatch, frameBytes, frameRecord, h, progChange_eq, abandon_eq]
  | controlChange =>
    simp only [dispatch, frameBytes, frameRecord]
    cases (s.chan c).configState with
    | idle => cases (s.chan c).ccMode <;> simp [ccSingle_eq, ccScaled_eq]
    | awaitMC => simp [cfgModeCh_eq]
    | awaitCC => simp [cfgCc_eq]
    | awaitVel => simp [cfgVel_eq]

/-! ## Frame completion (R131, R132) -/

theorem completeFrame_stopped (op : State → State) (s : State) (h : s.started = false) :
    completeFrame op s = setFcState .awaitingCommand s := by simp [completeFrame, h]

theorem completeFrame_started (op : State → State) (s : State) (h : s.started = true) :
    completeFrame op s = op (setFcState .awaitingCommand s) := by simp [completeFrame, h]

theorem completeData_stopped (d : Payload) (s : State) (h : s.started = false) :
    completeData d s = setFcState .awaitingCommand s := completeFrame_stopped _ _ h

theorem completeData_started (d : Payload) (s : State) (h : s.started = true) :
    completeData d s = channelAct s.fcChan (frameBytes s.fcKind d (s.chan s.fcChan))
      (frameRecord s.fcKind d (s.chan s.fcChan)) (setFcState .awaitingCommand s) := by
  rw [completeData, completeFrame_started _ _ h, dispatch_eq]; rfl

/-! ## The Start and Stop sweeps (R123, R124) -/

theorem sweepChannel_eq (s : State) (c : Chan) :
    sweepChannel s c = channelAct c (s.chan c).noteOffBytes (s.chan c).quiet s := by
  simp [sweepChannel, stopNote_eq, abandon_eq, Channel.quiet]

/-- A sweep over a list without repeats quiets the listed channels, leaves the others, and emits each listed channel's Note
Off in the list's order. -/
theorem foldl_sweepChannel (order : List Chan) (hn : order.Nodup) (s : State) :
    (∀ c, (order.foldl sweepChannel s).chan c = if c ∈ order then (s.chan c).quiet else s.chan c) ∧
    (order.foldl sweepChannel s).midiOut = s.midiOut ++ order.flatMap (fun c => (s.chan c).noteOffBytes) ∧
    (order.foldl sweepChannel s).started = s.started ∧ (order.foldl sweepChannel s).fcState = s.fcState ∧
    (order.foldl sweepChannel s).fcChan = s.fcChan ∧ (order.foldl sweepChannel s).fcKind = s.fcKind ∧
    (order.foldl sweepChannel s).linkClock = s.linkClock ∧ (order.foldl sweepChannel s).pulses = s.pulses ∧
    (order.foldl sweepChannel s).linkIn = s.linkIn := by
  induction order generalizing s with
  | nil => simp
  | cons a rest ih =>
    obtain ⟨ha, hr⟩ := List.nodup_cons.mp hn
    obtain ⟨h1, h2, h3⟩ := ih hr (sweepChannel s a)
    refine ⟨fun c => ?_, ?_, ?_⟩
    · rw [List.foldl_cons, h1, sweepChannel_eq, channelAct_chan]
      by_cases hc : c = a
      · subst hc; simp [ha]
      · simp [hc]
    · rw [List.foldl_cons, h2, sweepChannel_eq]
      have : rest.flatMap (fun c => ((channelAct a (s.chan a).noteOffBytes (s.chan a).quiet s).chan c).noteOffBytes) =
          rest.flatMap (fun c => (s.chan c).noteOffBytes) := by
        apply List.flatMap_congr
        intro c hc
        rw [channelAct_chan_ne]
        rintro rfl; exact ha hc
      simp [this]
    · rw [List.foldl_cons]
      simpa [sweepChannel_eq] using h3

theorem foldl_abandon (order : List Chan) (s : State) :
    (∀ c, (order.foldl (fun t c => abandon c t) s).chan c =
      if c ∈ order then { s.chan c with configState := .idle } else s.chan c) ∧
    (order.foldl (fun t c => abandon c t) s).midiOut = s.midiOut ∧
    (order.foldl (fun t c => abandon c t) s).started = s.started ∧
    (order.foldl (fun t c => abandon c t) s).fcState = s.fcState ∧
    (order.foldl (fun t c => abandon c t) s).fcChan = s.fcChan ∧
    (order.foldl (fun t c => abandon c t) s).fcKind = s.fcKind ∧
    (order.foldl (fun t c => abandon c t) s).linkClock = s.linkClock ∧
    (order.foldl (fun t c => abandon c t) s).pulses = s.pulses ∧
    (order.foldl (fun t c => abandon c t) s).linkIn = s.linkIn := by
  induction order generalizing s with
  | nil => simp
  | cons a rest ih =>
    obtain ⟨h1, h2⟩ := ih (abandon a s)
    refine ⟨fun c => ?_, ?_⟩
    · rw [List.foldl_cons, h1, abandon_eq, channelAct_chan]
      by_cases hc : c = a
      · subst hc; simp
      · simp [hc]
    · rw [List.foldl_cons]
      simpa [abandon_eq] using h2

theorem mem_channels (c : Chan) : c ∈ Config.channels := by
  revert c; decide

theorem nodup_channels : Config.channels.Nodup := by decide

/-- The Stop sweep visits every channel (R8: a permutation of 0..3). -/
theorem mem_sweepOrder (c : Chan) : c ∈ sweepOrder := by
  simp only [sweepOrder, List.mem_map]
  exact ⟨Config.stopSweepOrder.symm c, mem_channels _, by simp⟩

/-- The Stop sweep visits no channel twice. -/
theorem nodup_sweepOrder : sweepOrder.Nodup := nodup_channels.map Config.stopSweepOrder.injective

/-- What START does (R123): every channel abandoned, `started` set, the rest kept. -/
theorem doStart_spec (s : State) :
    (∀ c, (doStart s).chan c = { s.chan c with configState := .idle }) ∧ (doStart s).midiOut = s.midiOut ∧
    (doStart s).started = true ∧ (doStart s).fcState = s.fcState ∧ (doStart s).fcChan = s.fcChan ∧
    (doStart s).fcKind = s.fcKind ∧ (doStart s).linkClock = s.linkClock ∧ (doStart s).pulses = s.pulses ∧
    (doStart s).linkIn = s.linkIn := by
  obtain ⟨h1, h2, -, h4⟩ := foldl_abandon Config.channels s
  refine ⟨fun c => ?_, h2, rfl, h4⟩
  have := h1 c
  rw [if_pos (mem_channels c)] at this
  exact this

/-- What STOP does (R124), for any order that visits every channel once. -/
theorem doStop_spec (order : List Chan) (hn : order.Nodup) (hm : ∀ c, c ∈ order) (s : State) :
    (∀ c, (doStop order s).chan c = (s.chan c).quiet) ∧
    (doStop order s).midiOut = s.midiOut ++ order.flatMap (fun c => (s.chan c).noteOffBytes) ∧
    (doStop order s).started = false ∧ (doStop order s).fcState = s.fcState ∧ (doStop order s).fcChan = s.fcChan ∧
    (doStop order s).fcKind = s.fcKind ∧ (doStop order s).linkClock = s.linkClock ∧
    (doStop order s).pulses = s.pulses ∧ (doStop order s).linkIn = s.linkIn := by
  obtain ⟨h1, h2, -, h4⟩ := foldl_sweepChannel order hn s
  refine ⟨fun c => ?_, h2, rfl, h4⟩
  have := h1 c
  rw [if_pos (hm c)] at this
  exact this

end Sys2Proof.Machine
end

