-- ==== Sys2Proof/Laws/Engine.lean ====
section
/-! SUPPORT. The records the Configuration Engine leaves, field by field, and the values of the rescaling functions. -/

namespace Sys2Proof.Machine

/-! ## Rescaling (R181, R182) -/

theorem scale111_toNat (v : Payload) (h : v ≤ 0x6F#7) : (scale111 v).toNat = v.toNat * 0x7F / 0x6F := by
  have hd : ∀ v : Payload, v ≤ 0x6F#7 →
      (BitVec.ofNat 8 (v.toNat * Config.scaleNum / Config.scale111Den)).toNat = v.toNat * 0x7F / 0x6F := by decide
  rw [scale111, if_pos h, hd v h]

/-- On its domain `scale111` gives a MIDI data byte: a 7-bit value zero-extended. -/
theorem scale111_midiData (v : Payload) (h : v ≤ 0x6F#7) : scale111 v = midiData (payloadOf (scale111 v)) := by
  have hd : ∀ v : Payload, v ≤ 0x6F#7 →
      BitVec.ofNat 8 (v.toNat * Config.scaleNum / Config.scale111Den) =
        midiData (payloadOf (BitVec.ofNat 8 (v.toNat * Config.scaleNum / Config.scale111Den))) := by decide
  rw [scale111, if_pos h]
  exact hd v h

theorem scale15_toNat (x : Nibble) : (scale15 x).toNat = x.toNat * 0x7F / 0xF := by revert x; decide

theorem scale15_midiData (x : Nibble) : scale15 x = midiData (payloadOf (scale15 x)) := by revert x; decide

/-! ## CFG.MODECH (R153) -/

@[simp] theorem modeChBase_ccMode (n : Nibble) (r : Channel) : (modeChBase n r).ccMode = r.ccMode := by
  unfold modeChBase; split <;> rfl
@[simp] theorem modeChBase_velocity (n : Nibble) (r : Channel) : (modeChBase n r).velocity = r.velocity := by
  unfold modeChBase; split <;> rfl
@[simp] theorem modeChBase_currentNote (n : Nibble) (r : Channel) :
    (modeChBase n r).currentNote = if n = r.midiChannel then r.currentNote else 0#7 := by
  unfold modeChBase; split <;> rfl

@[simp] theorem modeChRecord_midiChannel (m : Count) (n : Nibble) (r : Channel) :
    (modeChRecord m n r).midiChannel = n := by unfold modeChRecord; split <;> [skip; split] <;> rfl
@[simp] theorem modeChRecord_slot (m : Count) (n : Nibble) (r : Channel) (i : Slot) :
    (modeChRecord m n r).slot i = none := by
  unfold modeChRecord; split <;> [skip; split] <;> simp [Channel.slot, Channel.clearSlots]
@[simp] theorem modeChRecord_remaining (m : Count) (n : Nibble) (r : Channel) :
    (modeChRecord m n r).remaining = m := by unfold modeChRecord; split <;> [skip; split] <;> rfl
@[simp] theorem modeChRecord_velocity (m : Count) (n : Nibble) (r : Channel) :
    (modeChRecord m n r).velocity = r.velocity := by unfold modeChRecord; split <;> [skip; split] <;> rfl
@[simp] theorem modeChRecord_currentNote (m : Count) (n : Nibble) (r : Channel) :
    (modeChRecord m n r).currentNote = r.currentNote := by unfold modeChRecord; split <;> [skip; split] <;> rfl
theorem modeChRecord_ccMode (m : Count) (n : Nibble) (r : Channel) :
    (modeChRecord m n r).ccMode = if m = 0#3 then r.ccMode else if m = 1#3 then .single else .scaled := by
  unfold modeChRecord; split <;> [skip; split] <;> rfl
theorem modeChRecord_configState (m : Count) (n : Nibble) (r : Channel) :
    (modeChRecord m n r).configState = if m = 0#3 then .awaitVel else .awaitCC := by
  unfold modeChRecord; split <;> [skip; split] <;> rfl

/-! ## CFG.CC (R154) -/

/-- The decrement on its domain 1..7 (R193). -/
theorem decrement_toNat (r : Count) (h : r ≠ 0#3) : (decrement r).toNat + 1 = r.toNat := by
  rw [decrement, if_neg h]; revert r; decide

theorem slot_fillSlot (r : Channel) (l : Count) (g : Payload) (i : Slot) :
    (fillSlot r l g).slot i = if i.val = l.toNat then some g else r.slot i := by
  unfold fillSlot slotOf
  by_cases h : l.toNat < 7
  · simp only [h, dite_true, slot_setSlot, Fin.ext_iff]
  · have : i.val ≠ l.toNat := by have := i.isLt; omega
    simp [h, this]

@[simp] theorem fillSlot_midiChannel (r : Channel) (l : Count) (g : Payload) : (fillSlot r l g).midiChannel = r.midiChannel := by
  unfold fillSlot; split <;> rfl
@[simp] theorem fillSlot_ccMode (r : Channel) (l : Count) (g : Payload) : (fillSlot r l g).ccMode = r.ccMode := by
  unfold fillSlot; split <;> rfl
@[simp] theorem fillSlot_velocity (r : Channel) (l : Count) (g : Payload) : (fillSlot r l g).velocity = r.velocity := by
  unfold fillSlot; split <;> rfl
@[simp] theorem fillSlot_currentNote (r : Channel) (l : Count) (g : Payload) : (fillSlot r l g).currentNote = r.currentNote := by
  unfold fillSlot; split <;> rfl
@[simp] theorem fillSlot_configState (r : Channel) (l : Count) (g : Payload) : (fillSlot r l g).configState = r.configState := by
  unfold fillSlot; split <;> rfl

theorem cfgCcRecord_slot (g : Payload) (r : Channel) (i : Slot) :
    (cfgCcRecord g r).slot i = if i.val = (decrement r.remaining).toNat then some g else r.slot i := by
  rw [← slot_fillSlot]; unfold cfgCcRecord; dsimp only; split <;> rfl
@[simp] theorem cfgCcRecord_remaining (g : Payload) (r : Channel) : (cfgCcRecord g r).remaining = decrement r.remaining := by
  unfold cfgCcRecord; dsimp only; split <;> rfl
theorem cfgCcRecord_configState (g : Payload) (r : Channel) :
    (cfgCcRecord g r).configState = if decrement r.remaining = 0#3 then .awaitVel else r.configState := by
  unfold cfgCcRecord; dsimp only; split <;> simp
@[simp] theorem cfgCcRecord_midiChannel (g : Payload) (r : Channel) : (cfgCcRecord g r).midiChannel = r.midiChannel := by
  unfold cfgCcRecord; dsimp only; split <;> simp
@[simp] theorem cfgCcRecord_ccMode (g : Payload) (r : Channel) : (cfgCcRecord g r).ccMode = r.ccMode := by
  unfold cfgCcRecord; dsimp only; split <;> simp
@[simp] theorem cfgCcRecord_velocity (g : Payload) (r : Channel) : (cfgCcRecord g r).velocity = r.velocity := by
  unfold cfgCcRecord; dsimp only; split <;> simp
@[simp] theorem cfgCcRecord_currentNote (g : Payload) (r : Channel) : (cfgCcRecord g r).currentNote = r.currentNote := by
  unfold cfgCcRecord; dsimp only; split <;> simp

/-! ## Completed frames in the terms of the claims -/

theorem afterFrame_eq_act (s : State) (c : Chan) (bs : List Byte) (r : Channel) :
    afterFrame s c bs r = channelAct c bs r (setFcState .awaitingCommand s) := rfl

/-- A frame that completes while started, from what its operation does. -/
theorem completeFrame_afterFrame (op : State → State) (s : State) (c : Chan) (bs : List Byte) (r : Channel)
    (hs : s.started = true)
    (h : op (setFcState .awaitingCommand s) = channelAct c bs r (setFcState .awaitingCommand s)) :
    completeFrame op s = afterFrame s c bs r := by
  rw [completeFrame_started _ _ hs, h, afterFrame_eq_act]

end Sys2Proof.Machine
end

