-- ==== Sys2Proof/Laws/Link.lean ====
section
/-! SUPPORT. What a poll can do: it touches the link fields only, drives one pulse or eight, and a byte it returns has bit 7
set; and what it does with bits the remote presents. -/

namespace Sys2Proof.Machine

@[simp] theorem afterPulses_chan (n : Nat) (rest : List Bool) (s : State) (c : Chan) :
    (afterPulses n rest s).chan c = s.chan c := rfl
@[simp] theorem afterPulses_started (n : Nat) (rest : List Bool) (s : State) : (afterPulses n rest s).started = s.started := rfl
@[simp] theorem afterPulses_fcState (n : Nat) (rest : List Bool) (s : State) : (afterPulses n rest s).fcState = s.fcState := rfl
@[simp] theorem afterPulses_fcChan (n : Nat) (rest : List Bool) (s : State) : (afterPulses n rest s).fcChan = s.fcChan := rfl
@[simp] theorem afterPulses_fcKind (n : Nat) (rest : List Bool) (s : State) : (afterPulses n rest s).fcKind = s.fcKind := rfl
@[simp] theorem afterPulses_midiOut (n : Nat) (rest : List Bool) (s : State) : (afterPulses n rest s).midiOut = s.midiOut := rfl
@[simp] theorem afterPulses_linkClock (n : Nat) (rest : List Bool) (s : State) : (afterPulses n rest s).linkClock = .high := rfl
@[simp] theorem afterPulses_pulses (n : Nat) (rest : List Bool) (s : State) : (afterPulses n rest s).pulses = s.pulses + n := rfl
@[simp] theorem afterPulses_linkIn (n : Nat) (rest : List Bool) (s : State) : (afterPulses n rest s).linkIn = rest := rfl

@[simp] theorem afterPulses_afterPulses (n m : Nat) (r r' : List Bool) (s : State) :
    afterPulses m r' (afterPulses n r s) = afterPulses (n + m) r' s := by simp [afterPulses, Nat.add_assoc]

theorem linkPulseAndSample_cons (s : State) (b : Bool) (rest : List Bool) (h : s.linkIn = b :: rest) :
    linkPulseAndSample s = (b, afterPulses 1 rest s) := by simp [linkPulseAndSample, h, afterPulses]

/-- Any pulse, presented bit or free one: the link fields change, nothing else. -/
theorem linkPulseAndSample_state (s : State) : (linkPulseAndSample s).2 = afterPulses 1 s.linkIn.tail s := by
  cases h : s.linkIn <;> simp [linkPulseAndSample, h, afterPulses]

/-- `k + 1` samples: the link fields change, nothing else. -/
theorem readBits_state (k : Nat) (acc : Byte) (s : State) :
    (readBits (k + 1) acc s).2 = afterPulses (k + 1) (s.linkIn.drop (k + 1)) s := by
  induction k generalizing acc s with
  | zero => simp [readBits, linkPulseAndSample_state]
  | succ k ih =>
    rw [readBits, ih, linkPulseAndSample_state]
    simp [Nat.add_comm 1]

/-- The accumulator's bits move up by one place for every sample (R103). -/
theorem readBits_getLsbD (k : Nat) (acc : Byte) (s : State) (j : Nat) (h : k + j < 8) :
    (readBits k acc s).1.getLsbD (k + j) = acc.getLsbD j := by
  induction k generalizing acc s j with
  | zero => simp [readBits]
  | succ k ih =>
    have hj : k + (j + 1) < 8 := by omega
    rw [readBits, show k + 1 + j = k + (j + 1) by omega, ih _ _ _ hj]
    have h8 : j + 1 < 8 := by omega
    simp only [shiftIn, BitVec.getLsbD_or, BitVec.getLsbD_shiftLeft, BitVec.truncate_eq_setWidth, BitVec.getLsbD_setWidth,
      BitVec.getLsbD_ofBool, h8]
    simp

/-- `Poll` by its two parts: the gate, and the seven further samples (R103). -/
theorem poll_def (s : State) : poll s =
    if (linkPulseAndSample s).1 = true then
      (some (readBits 7 1#8 (linkPulseAndSample s).2).1, (readBits 7 1#8 (linkPulseAndSample s).2).2)
    else (none, (linkPulseAndSample s).2) := rfl

/-- A poll past the gate returns a byte whose bit 7 is 1 (R104). -/
theorem poll_some_msb (s s1 : State) (B : Byte) (h : poll s = (some B, s1)) : B.msb = true := by
  rw [poll_def] at h
  split at h
  · have hB : (readBits 7 1#8 (linkPulseAndSample s).2).1 = B := Option.some.inj (congrArg Prod.fst h)
    rw [← hB, BitVec.msb_eq_getLsbD_last]
    exact readBits_getLsbD 7 1#8 _ 0 (by omega)
  · exact absurd (congrArg Prod.fst h) (by simp)

/-- A poll that returns a byte drives eight pulses; the rest of the state is untouched (R100). -/
theorem poll_some_state (s s1 : State) (B : Byte) (h : poll s = (some B, s1)) :
    s1 = afterPulses 8 (s.linkIn.drop 8) s := by
  rw [poll_def] at h
  split at h
  · have h2 : (readBits (6 + 1) 1#8 (linkPulseAndSample s).2).2 = s1 := congrArg Prod.snd h
    rw [← h2, readBits_state, linkPulseAndSample_state]
    simp
  · exact absurd (congrArg Prod.fst h) (by simp)

/-- A poll that returns no byte drives one pulse; the rest of the state is untouched (R100, R106). -/
theorem poll_none_state (s s1 : State) (h : poll s = (none, s1)) : s1 = afterPulses 1 s.linkIn.tail s := by
  rw [poll_def] at h
  split at h
  · exact absurd (congrArg Prod.fst h) (by simp)
  · have h2 : (linkPulseAndSample s).2 = s1 := congrArg Prod.snd h
    rw [← h2, linkPulseAndSample_state]

/-- The seven samples after the first, presented by the remote. -/
theorem readBits_presented (s : State) (b6 b5 b4 b3 b2 b1 b0 : Bool) (rest : List Bool)
    (h : s.linkIn = b6 :: b5 :: b4 :: b3 :: b2 :: b1 :: b0 :: rest) (acc : Byte) :
    (readBits 7 acc s).1 = [b6, b5, b4, b3, b2, b1, b0].foldl shiftIn acc := by
  simp only [readBits, linkPulseAndSample_cons s _ _ h, linkPulseAndSample_cons _ _ _ (afterPulses_linkIn _ _ _),
    List.foldl]

theorem foldl_byteSamples (B : Byte) (h : B.msb = true) :
    [B.getLsbD 6, B.getLsbD 5, B.getLsbD 4, B.getLsbD 3, B.getLsbD 2, B.getLsbD 1, B.getLsbD 0].foldl shiftIn 1#8 = B := by
  revert B; decide

theorem byteSamples_of_msb (B : Byte) (h : B.msb = true) :
    byteSamples B = [true, B.getLsbD 6, B.getLsbD 5, B.getLsbD 4, B.getLsbD 3, B.getLsbD 2, B.getLsbD 1, B.getLsbD 0] := by
  revert B; decide

/-- A wire byte the remote presents is the byte the poll returns (R53, R103). -/
theorem poll_presented (s : State) (B : Byte) (rest : List Bool) (hB : B.msb = true)
    (h : s.linkIn = byteSamples B ++ rest) : poll s = (some B, afterPulses 8 rest s) := by
  obtain ⟨s7, h1, hs7⟩ : ∃ s7, linkPulseAndSample s = (true, s7) ∧ s7 = afterPulses 1 s7.linkIn s ∧
      s7.linkIn = B.getLsbD 6 :: B.getLsbD 5 :: B.getLsbD 4 :: B.getLsbD 3 :: B.getLsbD 2 :: B.getLsbD 1 ::
        B.getLsbD 0 :: rest := by
    rw [byteSamples_of_msb B hB] at h
    exact ⟨_, linkPulseAndSample_cons s _ _ h, rfl, rfl⟩
  have hb := readBits_presented s7 _ _ _ _ _ _ _ rest hs7.2 1#8
  rw [foldl_byteSamples B hB] at hb
  have hs := readBits_state 6 1#8 s7
  rw [poll_def, h1, if_pos rfl]
  refine Prod.ext (congrArg some hb) ?_
  show (readBits (6 + 1) 1#8 s7).2 = _
  rw [hs, hs7.2, hs7.1]
  simp

/-- A presented 0 ends the poll after one pulse (R102). -/
theorem poll_presented_zero (s : State) (rest : List Bool) (h : s.linkIn = false :: rest) :
    poll s = (none, afterPulses 1 rest s) := by
  rw [poll_def, linkPulseAndSample_cons s _ _ h, if_neg (by simp)]

/-! ## What a poll returns depends on the link input only (R107) -/

theorem linkPulseAndSample_congr (s u : State) (h1 : s.linkIn = u.linkIn) (h2 : s.pulses = u.pulses) :
    (linkPulseAndSample s).1 = (linkPulseAndSample u).1 := by
  simp only [linkPulseAndSample, h1, h2]; split <;> rfl

theorem readBits_congr (k : Nat) (acc : Byte) (s u : State) (h1 : s.linkIn = u.linkIn) (h2 : s.pulses = u.pulses) :
    (readBits k acc s).1 = (readBits k acc u).1 := by
  induction k generalizing acc s u with
  | zero => rfl
  | succ k ih =>
    simp only [readBits]
    rw [linkPulseAndSample_congr s u h1 h2]
    apply ih <;> simp [linkPulseAndSample_state, h1, h2]

theorem poll_congr (s u : State) (h1 : s.linkIn = u.linkIn) (h2 : s.pulses = u.pulses) : (poll s).1 = (poll u).1 := by
  rw [poll_def, poll_def, linkPulseAndSample_congr s u h1 h2]
  split
  · exact congrArg some
      (readBits_congr _ _ _ _ (by simp [linkPulseAndSample_state, h1]) (by simp [linkPulseAndSample_state, h2]))
  · rfl

end Sys2Proof.Machine
end

