-- ==== Sys2Proof/Laws/Output.lean ====
section
/-! SUPPORT. What a dispatched frame does to the invariant's parts (R37): its bytes are whole messages that balance the
sounding notes, and its record stays in range with a legal count. -/

namespace Sys2Proof.Machine

/-- 1 if note `k` sounds on MIDI channel `n` in this record, else 0. -/
def Channel.sounds (n : Nibble) (k : Payload) (r : Channel) : Nat := if r.midiChannel = n ∧ r.currentNote = k then 1 else 0

theorem sounding_eq (n : Nibble) (k : Payload) (s : State) : sounding n k s =
    (s.chan 0).sounds n k + (s.chan 1).sounds n k + (s.chan 2).sounds n k + (s.chan 3).sounds n k := by
  simp only [sounding, Config.channels, List.countP_cons, List.countP_nil, Channel.sounds, Bool.and_eq_true,
    decide_eq_true_eq]
  omega

theorem sounding_channelAct (n : Nibble) (k : Payload) (c : Chan) (bs : List Byte) (r : Channel) (s : State) :
    sounding n k (channelAct c bs r s) + (s.chan c).sounds n k = sounding n k s + r.sounds n k := by
  simp only [sounding_eq, channelAct_chan]
  fin_cases c <;> simp <;> omega

/-- `bs` is whole messages, and their Note Ons and Note Offs account for the change of sounding note from `r` to `r'`. -/
def Accounts (bs : List Byte) (r r' : Channel) : Prop :=
  ∃ ms, parseMessages bs = some ms ∧ ∀ n k, k ≠ 0#7 → noteOns n k ms + r.sounds n k = noteOffs n k ms + r'.sounds n k

theorem outputOk_channelAct (c : Chan) (bs : List Byte) (r : Channel) (s : State) (h : s.OutputOk)
    (hb : Accounts bs (s.chan c) r) : (channelAct c bs r s).OutputOk := by
  obtain ⟨ms, h1, h2⟩ := h
  obtain ⟨ms', h3, h4⟩ := hb
  refine ⟨ms ++ ms', by rw [channelAct_midiOut, parseMessages_append _ _ _ h1, h3]; rfl, ?_⟩
  intro n k hk
  have e1 := h2 n k hk
  have e2 := h4 n k hk
  have e3 := sounding_channelAct n k c bs r s
  have e4 : noteOns n k (ms ++ ms') = noteOns n k ms + noteOns n k ms' := by simp [noteOns]
  have e5 : noteOffs n k (ms ++ ms') = noteOffs n k ms + noteOffs n k ms' := by simp [noteOffs]
  omega

theorem parseMessages_nil : parseMessages [] = some [] := by simp [parseMessages]

theorem parseMessages_single (m : Instr) (h : m.isMessage = true) : parseMessages (encode m) = some [m] := by
  have := parseMessages_encode m h []
  rw [parseMessages_nil, List.append_nil] at this
  exact this

theorem parse_noteOffBytes (r : Channel) : parseMessages r.noteOffBytes =
    some (if r.currentNote = 0#7 then [] else [.mNoteOff r.midiChannel r.currentNote]) := by
  unfold Channel.noteOffBytes
  split
  · exact parseMessages_nil
  · exact parseMessages_single (.mNoteOff r.midiChannel r.currentNote) rfl

theorem parse_noteOnBytes (n : Nibble) (d v : Payload) (hv : v ≤ 0x6F#7) :
    parseMessages [statusByte Config.stNoteOn n, midiData d, scale111 v] =
      some [.mNoteOn n d (payloadOf (scale111 v))] := by
  have := parseMessages_single (.mNoteOn n d (payloadOf (scale111 v))) rfl
  simp only [encode, ← scale111_midiData v hv] at this
  exact this

theorem accounts_nil (r r' : Channel) (h1 : r'.midiChannel = r.midiChannel) (h2 : r'.currentNote = r.currentNote) :
    Accounts [] r r' := by
  refine ⟨[], parseMessages_nil, fun n k _ => ?_⟩
  simp [noteOns, noteOffs, Channel.sounds, h1, h2]

theorem accounts_noteOff (r r' : Channel) (h : r'.currentNote = 0#7) : Accounts r.noteOffBytes r r' := by
  refine ⟨_, parse_noteOffBytes r, fun n k hk => ?_⟩
  by_cases h0 : r.currentNote = 0#7
  · simp [noteOns, noteOffs, Channel.sounds, h0, h, hk.symm]
  · simp [noteOns, noteOffs, Channel.sounds, h0, h, hk.symm, List.countP_cons]

theorem accounts_noteOn (r r' : Channel) (d : Payload) (hv : r.velocity ≤ 0x6F#7)
    (h1 : r'.midiChannel = r.midiChannel) (h2 : r'.currentNote = d) :
    Accounts (r.noteOffBytes ++ [statusByte Config.stNoteOn r.midiChannel, midiData d, scale111 r.velocity]) r r' := by
  refine ⟨_, (parseMessages_append _ _ _ (parse_noteOffBytes r)).trans (by rw [parse_noteOnBytes _ _ _ hv]; rfl),
    fun n k hk => ?_⟩
  by_cases h0 : r.currentNote = 0#7
  · simp [noteOns, noteOffs, Channel.sounds, h0, h1, h2, hk.symm, List.countP_cons]
  · simp [noteOns, noteOffs, Channel.sounds, h0, h1, h2, List.countP_cons]; omega

theorem accounts_cc (r : Channel) (g : Option Payload) (v : Byte) (hv : v = midiData (payloadOf v)) :
    Accounts (ccBytes r g v) r r := by
  cases g with
  | none => exact accounts_nil r r rfl rfl
  | some g =>
    refine ⟨[.mCc r.midiChannel g (payloadOf v)], ?_, by simp [noteOns, noteOffs]⟩
    rw [ccBytes, hv]
    have := parseMessages_single (.mCc r.midiChannel g (payloadOf v)) rfl
    simpa [encode] using this

theorem accounts_pc (r r' : Channel) (p : Payload) (h1 : r'.midiChannel = r.midiChannel)
    (h2 : r'.currentNote = r.currentNote) : Accounts [statusByte Config.stPc r.midiChannel, midiData p] r r' := by
  refine ⟨_, parseMessages_single (.mPc r.midiChannel p) rfl, ?_⟩
  simp [noteOns, noteOffs, Channel.sounds, h1, h2]

theorem frameBytes_accounts (k : Kind) (d : Payload) (r : Channel) (hr : r.InRange) (hd : d ≤ 0x6F#7) :
    Accounts (frameBytes k d r) r (frameRecord k d r) := by
  cases k with
  | note =>
    by_cases h : d = 0#7
    · simp only [frameBytes, frameRecord, h, if_true]; exact accounts_noteOff _ _ rfl
    · simp only [frameBytes, frameRecord, h, if_false]; exact accounts_noteOn _ _ _ hr.velocity rfl rfl
  | programChange =>
    by_cases h : d = Config.cfgSentinel
    · simp only [frameBytes, frameRecord, h, if_true]; exact accounts_nil _ _ rfl rfl
    · simp only [frameBytes, frameRecord, h, if_false]; exact accounts_pc _ _ _ rfl rfl
  | controlChange =>
    simp only [frameBytes, frameRecord]
    cases r.configState with
    | idle =>
      dsimp only
      cases r.ccMode with
      | single => exact accounts_cc _ _ _ (scale111_midiData d hd)
      | scaled => exact accounts_cc _ _ _ (scale15_midiData _)
    | awaitMC =>
      dsimp only
      by_cases h : lowNibble d = r.midiChannel
      · simp only [modeChBytes, modeChBase, h, if_true]; exact accounts_nil _ _ (by simp) (by simp)
      · simp only [modeChBytes, modeChBase, h, if_false]; exact accounts_noteOff _ _ (by simp)
    | awaitCC => exact accounts_nil _ _ (by simp) (by simp)
    | awaitVel => exact accounts_nil _ _ rfl rfl

theorem frameRecord_inRange (k : Kind) (d : Payload) (r : Channel) (hr : r.InRange) (hd : d ≤ 0x6F#7) :
    (frameRecord k d r).InRange := by
  cases k with
  | note => exact ⟨hr.velocity, hd, hr.slots⟩
  | programChange =>
    by_cases h : d = Config.cfgSentinel
    · simp only [frameRecord, h, if_true]; exact ⟨hr.velocity, hr.currentNote, hr.slots⟩
    · simp only [frameRecord, h, if_false]; exact ⟨hr.velocity, hr.currentNote, hr.slots⟩
  | controlChange =>
    simp only [frameRecord]
    cases r.configState with
    | idle => exact hr
    | awaitMC =>
      refine ⟨by simpa using hr.velocity, ?_, by simp⟩
      simp
      split
      · exact hr.currentNote
      · decide
    | awaitCC =>
      refine ⟨by simpa using hr.velocity, by simpa using hr.currentNote, ?_⟩
      intro i g hg
      rw [cfgCcRecord_slot] at hg
      split at hg
      · simp at hg; subst hg; exact hd
      · exact hr.slots i g hg
    | awaitVel => exact ⟨hd, hr.currentNote, hr.slots⟩

theorem frameRecord_countOk (k : Kind) (d : Payload) (r : Channel) (hr : r.CountOk) (hd : d ≤ 0x6F#7) :
    (frameRecord k d r).CountOk := by
  obtain ⟨c1, c2, c3, c4⟩ := hr
  cases k with
  | note => exact ⟨by simp [frameRecord], by simp [frameRecord], c3, c4⟩
  | programChange =>
    by_cases h : d = Config.cfgSentinel
    · simp only [frameRecord, h, if_true]; exact ⟨by simp, by simp, c3, c4⟩
    · simp only [frameRecord, h, if_false]; exact ⟨by simp, by simp, c3, c4⟩
  | controlChange =>
    simp only [frameRecord]
    cases hc : r.configState with
    | idle => exact ⟨c1, c2, c3, c4⟩
    | awaitMC =>
      have h7 : highField d ≠ 7#3 := by revert hd; clear * -; revert d; decide
      refine ⟨?_, ?_, by simp, by simp⟩
      · rw [modeChRecord_configState]
        split
        · simp
        · simp_all
      · rw [modeChRecord_configState, modeChRecord_ccMode]
        intro h1 h2
        by_cases h0 : highField d = 0#3
        · simp [h0] at h1
        · simp [h0] at h2; simp [h2]
    | awaitCC =>
      have h1 := c1 hc
      have hdec := decrement_toNat _ h1.1
      refine ⟨?_, ?_, ?_, ?_⟩
      · rw [cfgCcRecord_configState, cfgCcRecord_remaining]
        split
        · simp
        · rename_i hx
          refine fun _ => ⟨hx, fun h => ?_⟩
          rw [h] at hdec
          have := r.remaining.isLt
          simp at hdec
          omega
      · rw [cfgCcRecord_configState, cfgCcRecord_ccMode]
        intro h2 h3
        simp [c2 hc h3, decrement] at h2
      · rw [cfgCcRecord_slot, if_neg, c3]
        intro h
        have h2 : r.remaining.toNat ≠ 7 := fun e => h1.2 (by apply BitVec.eq_of_toNat_eq; simpa using e)
        simp at h
        omega
      · simp only [cfgCcRecord_ccMode]
        intro h3 i hi
        rw [cfgCcRecord_slot, if_neg, c4 h3 i hi]
        intro h
        have h8 : r.remaining.toNat = 1 := by rw [c2 hc h3]; rfl
        apply hi
        apply Fin.ext
        show i.val = 0
        omega
    | awaitVel => exact ⟨by simp, by simp, c3, c4⟩

theorem quiet_inRange (r : Channel) (h : r.InRange) : r.quiet.InRange := ⟨h.velocity, by simp [Channel.quiet], h.slots⟩

theorem quiet_countOk (r : Channel) (h : r.CountOk) : r.quiet.CountOk :=
  ⟨by simp [Channel.quiet], by simp [Channel.quiet], h.lastSlot, h.singleSlots⟩

end Sys2Proof.Machine
end

