-- ==== Sys2Proof/Laws/Step.lean ====
section
/-! SUPPORT. What one received payload can do, said once, and how a step comes to it. -/

namespace Sys2Proof.Machine

/-- The decoder and `exec` on a received payload do what `Classify` of R121 does. -/
theorem exec_decodePayload (p : Payload) (s : State) : exec (decodePayload s.fcState p) s = .next (classify p s) := by
  unfold decodePayload classify classifyWith
  by_cases hc : isCommand p = true
  · rw [if_pos hc, if_pos hc]
    rcases command_cases p hc with ⟨rfl, h⟩ | ⟨rfl, h⟩ | ⟨rfl, h⟩ | ⟨rfl, h⟩ | ⟨hp, k, hk, h⟩
    · rw [h]; rfl
    · rw [h]; rfl
    · rw [h]; rfl
    · rw [h]; rfl
    · have h1 := not_transport p hp
      rw [if_neg h1.1, if_neg h1.2.1, if_neg h1.2.2.1, if_neg h1.2.2.2, h, hk]
      cases k <;> rfl
  · rw [if_neg hc, if_neg hc]
    cases s.fcState <;> rfl

theorem classifyWith_start (preempts : Bool) (order : List Chan) (s : State) :
    classifyWith preempts order 0x7D#7 s = doStart (setFcState .awaitingCommand s) := rfl

theorem classifyWith_stop (preempts : Bool) (order : List Chan) (s : State) :
    classifyWith preempts order 0x7E#7 s = doStop order (setFcState .awaitingCommand s) := rfl

theorem classifyWith_reserved (preempts : Bool) (order : List Chan) (p : Payload) (s : State)
    (hp : p = 0x7F#7 ∨ p = 0x7C#7) : classifyWith preempts order p s = reservedByte preempts s := by
  rcases hp with rfl | rfl <;> rfl

theorem classifyWith_command (preempts : Bool) (order : List Chan) (p : Payload) (s : State) (k : Kind)
    (hc : isCommand p = true) (hp : p < 0x7C#7) (hk : kindOf (kindField p) = some k) :
    classifyWith preempts order p s = latchCommand (chanField p) k s := by
  have h1 := not_transport p hp
  rw [classifyWith, if_pos hc, if_neg h1.1, if_neg h1.2.1, if_neg h1.2.2.1, if_neg h1.2.2.2, hk]

theorem classifyWith_orphan (preempts : Bool) (order : List Chan) (p : Payload) (s : State)
    (hc : isCommand p = false) (hf : s.fcState = .awaitingCommand) : classifyWith preempts order p s = s := by
  simp [classifyWith, hc, hf]

theorem classifyWith_data (preempts : Bool) (order : List Chan) (p : Payload) (s : State)
    (hc : isCommand p = false) (hf : s.fcState = .awaitingData) :
    classifyWith preempts order p s = completeData p s := by
  simp [classifyWith, hc, hf]

/-- What a received payload can do (R134): the seven cases of the Classifier. -/
theorem classifyWith_cases (preempts : Bool) (order : List Chan) (p : Payload) (s : State) :
    (p = 0x7D#7 ∧ classifyWith preempts order p s = doStart (setFcState .awaitingCommand s)) ∨
    (p = 0x7E#7 ∧ classifyWith preempts order p s = doStop order (setFcState .awaitingCommand s)) ∨
    ((p = 0x7F#7 ∨ p = 0x7C#7) ∧ classifyWith preempts order p s = reservedByte preempts s) ∨
    (isCommand p = true ∧ p < 0x7C#7 ∧ ∃ k, kindOf (kindField p) = some k ∧
      classifyWith preempts order p s = latchCommand (chanField p) k s) ∨
    (isCommand p = false ∧ s.fcState = .awaitingCommand ∧ classifyWith preempts order p s = s) ∨
    (isCommand p = false ∧ s.fcState = .awaitingData ∧ s.started = false ∧
      classifyWith preempts order p s = setFcState .awaitingCommand s) ∨
    (isCommand p = false ∧ s.fcState = .awaitingData ∧ s.started = true ∧
      classifyWith preempts order p s = channelAct s.fcChan (frameBytes s.fcKind p (s.chan s.fcChan))
        (frameRecord s.fcKind p (s.chan s.fcChan)) (setFcState .awaitingCommand s)) := by
  by_cases hc : isCommand p = true
  · rcases command_cases p hc with ⟨rfl, -⟩ | ⟨rfl, -⟩ | ⟨rfl, -⟩ | ⟨rfl, -⟩ | ⟨hp, k, hk, -⟩
    · exact .inl ⟨rfl, rfl⟩
    · exact .inr (.inl ⟨rfl, rfl⟩)
    · exact .inr (.inr (.inl ⟨.inl rfl, rfl⟩))
    · exact .inr (.inr (.inl ⟨.inr rfl, rfl⟩))
    · exact .inr (.inr (.inr (.inl ⟨hc, hp, k, hk, classifyWith_command _ _ _ _ k hc hp hk⟩)))
  · have hc' : isCommand p = false := by simpa using hc
    cases hf : s.fcState with
    | awaitingCommand => exact .inr (.inr (.inr (.inr (.inl ⟨hc', rfl, classifyWith_orphan _ _ _ _ hc' hf⟩))))
    | awaitingData =>
      have h0 := classifyWith_data preempts order p s hc' hf
      cases hs : s.started with
      | false =>
        exact .inr (.inr (.inr (.inr (.inr (.inl ⟨hc', rfl, rfl, h0.trans (completeData_stopped _ _ hs)⟩)))))
      | true =>
        exact .inr (.inr (.inr (.inr (.inr (.inr ⟨hc', rfl, rfl, h0.trans (completeData_started _ _ hs)⟩)))))

/-- A byte the remote presents is fetched as the decoder reads it (R89). -/
theorem fetch_presented (s : State) (B : Byte) (rest : List Bool) (h : s.linkIn = byteSamples B ++ rest) :
    fetch s = (decodeByte s.fcState B, afterPulses (byteSamples B).length rest s) := by
  by_cases hB : B.msb = true
  · rw [fetch, poll_presented s B rest hB h, byteSamples_of_msb B hB]
    rfl
  · have h' : byteSamples B = [false] := by simp [byteSamples, hB]
    rw [h'] at h ⊢
    rw [fetch, poll_presented_zero s rest h, decodeByte, if_neg hB]
    rfl

theorem length_byteSamples_of_msb (B : Byte) (h : B.msb = true) : (byteSamples B).length = 8 := by
  simp [byteSamples, h]

/-- A presented wire byte takes one step to the state `Classify` gives (R120). -/
theorem step_presented (s : State) (B : Byte) (rest : List Bool) (hB : B.msb = true)
    (h : s.linkIn = byteSamples B ++ rest) : step s = .next (classify (payloadOf B) (afterPulses 8 rest s)) := by
  rw [step, fetch_presented s B rest h, length_byteSamples_of_msb B hB, decodeByte, if_pos hB]
  exact exec_decodePayload _ (afterPulses 8 rest s)

/-- A presented byte, or a presented 0, takes one step to what the decoder reads from it. -/
theorem step_presented_exec (s : State) (B : Byte) (rest : List Bool) (h : s.linkIn = byteSamples B ++ rest) :
    step s = exec (decodeByte s.fcState B) (poll s).2 := by
  rw [step, fetch_presented s B rest h]
  by_cases hm : B.msb = true
  · rw [poll_presented s B rest hm h, length_byteSamples_of_msb B hm]
  · have h' : byteSamples B = [false] := by simp [byteSamples, hm]
    rw [h'] at h ⊢
    rw [poll_presented_zero s rest h]
    rfl

/-- Everything a step can do (R120): a poll that returns nothing, or a received byte classified. -/
theorem step_cases (s t : State) (h : step s = .next t) :
    (∃ rest, poll s = (none, afterPulses 1 rest s) ∧ t = afterPulses 1 rest s) ∨
    ∃ B rest, B.msb = true ∧ poll s = (some B, afterPulses 8 rest s) ∧
      t = classify (payloadOf B) (afterPulses 8 rest s) := by
  unfold step fetch at h
  rcases hp : poll s with ⟨_ | B, u⟩
  · rw [hp] at h
    have hu : u = t := Host.Outcome.next.inj h
    rw [← hu, poll_none_state s u hp]
    exact .inl ⟨_, rfl, rfl⟩
  · have hm := poll_some_msb s u B hp
    rw [hp] at h
    simp only [decodeByte, if_pos hm, exec_decodePayload] at h
    rw [← Host.Outcome.next.inj h, poll_some_state s u B hp]
    exact .inr ⟨B, _, hm, rfl, rfl⟩

/-! ## The link fields -/

theorem classify_linkFields (p : Payload) (s : State) :
    (classify p s).linkIn = s.linkIn ∧ (classify p s).pulses = s.pulses ∧ (classify p s).linkClock = s.linkClock := by
  rcases classifyWith_cases Config.reservedPreempts sweepOrder p s with
    ⟨rfl, h⟩ | ⟨rfl, h⟩ | ⟨hp, h⟩ | ⟨h1, h2, k, h3, h⟩ | ⟨h1, h2, h⟩ | ⟨h1, h2, h3, h⟩ | ⟨h1, h2, h3, h⟩ <;> rw [classify, h]
  · have := doStart_spec (setFcState .awaitingCommand s); simp [this]
  · have := doStop_spec sweepOrder nodup_sweepOrder mem_sweepOrder (setFcState .awaitingCommand s); simp [this]
  · unfold reservedByte; split <;> simp
  all_goals simp

/-- The Classifier's next state (R134) depends on the payload and the present one only. -/
theorem classify_fcState (p : Payload) (s : State) :
    (classify p s).fcState = nextFcState Config.reservedPreempts s.fcState p := by
  have hdat : isCommand p = false → ∀ st, nextFcState Config.reservedPreempts st p = .awaitingCommand := by
    intro h st; simp [nextFcState, h]
  rcases classifyWith_cases Config.reservedPreempts sweepOrder p s with
    ⟨rfl, h⟩ | ⟨rfl, h⟩ | ⟨hp, h⟩ | ⟨h1, h2, k, h3, h⟩ | ⟨h1, h2, h⟩ | ⟨h1, h2, h3, h⟩ | ⟨h1, h2, h3, h⟩ <;> rw [classify, h]
  · have := doStart_spec (setFcState .awaitingCommand s); simp [this]; rfl
  · have := doStop_spec sweepOrder nodup_sweepOrder mem_sweepOrder (setFcState .awaitingCommand s); simp [this]; rfl
  · unfold reservedByte; rcases hp with rfl | rfl <;> cases Config.reservedPreempts <;> simp <;> rfl
  · simp [nextFcState, h1, h3]
  · simp [hdat h1, h2]
  · simp [hdat h1]
  · simp [hdat h1]


theorem channelAct_afterPulses (c : Chan) (bs : List Byte) (r : Channel) (n : Nat) (rest : List Bool) (s : State) :
    channelAct c bs r (afterPulses n rest s) = afterPulses n rest (channelAct c bs r s) := rfl

theorem setStarted_afterPulses (b : Bool) (n : Nat) (rest : List Bool) (s : State) :
    setStarted b (afterPulses n rest s) = afterPulses n rest (setStarted b s) := rfl

theorem setFcState_afterPulses (f : FcState) (n : Nat) (rest : List Bool) (s : State) :
    setFcState f (afterPulses n rest s) = afterPulses n rest (setFcState f s) := rfl

theorem foldl_abandon_afterPulses (order : List Chan) (n : Nat) (rest : List Bool) (s : State) :
    order.foldl (fun t c => abandon c t) (afterPulses n rest s) =
      afterPulses n rest (order.foldl (fun t c => abandon c t) s) := by
  induction order generalizing s with
  | nil => rfl
  | cons a l ih => rw [List.foldl_cons, List.foldl_cons, abandon_eq, abandon_eq, channelAct_afterPulses, ← ih]; rfl

theorem foldl_sweepChannel_afterPulses (order : List Chan) (n : Nat) (rest : List Bool) (s : State) :
    order.foldl sweepChannel (afterPulses n rest s) = afterPulses n rest (order.foldl sweepChannel s) := by
  induction order generalizing s with
  | nil => rfl
  | cons a l ih =>
    rw [List.foldl_cons, List.foldl_cons, sweepChannel_eq, sweepChannel_eq, channelAct_afterPulses, ← ih]; rfl

/-- A received payload neither reads nor writes the link fields (R100, R120). -/
theorem classify_afterPulses (p : Payload) (n : Nat) (rest : List Bool) (s : State) :
    classify p (afterPulses n rest s) = afterPulses n rest (classify p s) := by
  unfold classify
  rcases classifyWith_cases Config.reservedPreempts sweepOrder p s with
    ⟨rfl, h⟩ | ⟨rfl, h⟩ | ⟨hp, h⟩ | ⟨h1, h2, k, h3, h⟩ | ⟨h1, h2, h⟩ | ⟨h1, h2, h3, h⟩ | ⟨h1, h2, h3, h⟩
  · rw [h, classifyWith_start, setFcState_afterPulses, doStart, foldl_abandon_afterPulses, setStarted_afterPulses, doStart]
  · rw [h, classifyWith_stop, setFcState_afterPulses, doStop, foldl_sweepChannel_afterPulses, setStarted_afterPulses,
      doStop]
  · rw [h, classifyWith_reserved _ _ p _ hp]
    unfold reservedByte
    split <;> rfl
  · rw [h, classifyWith_command _ _ p _ k h1 h2 h3]; rfl
  · rw [h, classifyWith_orphan _ _ p (afterPulses n rest s) h1 h2]
  · rw [h, classifyWith_data _ _ p (afterPulses n rest s) h1 h2]
    exact completeData_stopped p (afterPulses n rest s) h3
  · rw [h, classifyWith_data _ _ p (afterPulses n rest s) h1 h2]
    exact completeData_started p (afterPulses n rest s) h3

/-! ## Runs -/

theorem run_zero (s : State) : core.run 0 s = .next s := rfl

/-- A run of any machine whose first step answers next goes on from there. -/
theorem run_succ_of_step (M : Host.Core) (k : Nat) (s t : M.State) (h : M.step s = .next t) :
    M.run (k + 1) s = M.run k t := by simp [Host.Core.run, h]

theorem run_succ (k : Nat) (s t : State) (h : step s = .next t) : core.run (k + 1) s = core.run k t :=
  run_succ_of_step core k s t h

theorem classifyAll_cons (B : Byte) (bytes : List Byte) (s : State) :
    classifyAll (B :: bytes) s = classifyAll bytes (classify (payloadOf B) s) := rfl

theorem classifyAll_append (bytes bytes' : List Byte) (s : State) :
    classifyAll (bytes ++ bytes') s = classifyAll bytes' (classifyAll bytes s) := List.foldl_append ..

theorem classifyAll_afterPulses (bytes : List Byte) (n : Nat) (rest : List Bool) (s : State) :
    classifyAll bytes (afterPulses n rest s) = afterPulses n rest (classifyAll bytes s) := by
  induction bytes generalizing s with
  | nil => rfl
  | cons B bs ih => rw [classifyAll_cons, classify_afterPulses, ih, classifyAll_cons]

/-! ## A frame's two bytes (R76, R127 to R133) -/

theorem classify_commandOf (k : Kind) (c : Chan) (s : State) : classify (payloadOf (commandOf k c)) s = latchCommand c k s := by
  have : isCommand (payloadOf (commandOf k c)) = true ∧ payloadOf (commandOf k c) < 0x7C#7 ∧
      kindOf (kindField (payloadOf (commandOf k c))) = some k ∧ chanField (payloadOf (commandOf k c)) = c := by
    cases k <;> (revert c; decide)
  rw [classify, classifyWith_command _ _ _ _ k this.1 this.2.1 this.2.2.1, this.2.2.2]

theorem classifyAll_frame (k : Kind) (c : Chan) (d : Payload) (s : State) (hs : s.started = true)
    (hd : isDataValue d = true) :
    classifyAll [commandOf k c, wireOf d] s = channelAct c (frameBytes k d (s.chan c)) (frameRecord k d (s.chan c))
      (setFcState .awaitingCommand (latchCommand c k s)) := by
  rw [classifyAll_cons, classify_commandOf, classifyAll_cons, payloadOf_wireOf, classify,
    classifyWith_data _ _ _ _ (by rw [isCommand_eq_not_isDataValue, hd]; rfl) rfl,
    completeData_started _ _ (by simpa using hs)]
  rfl

theorem classifyAll_frame_stopped (k : Kind) (c : Chan) (d : Payload) (s : State) (hs : s.started = false)
    (hd : isDataValue d = true) :
    classifyAll [commandOf k c, wireOf d] s = setFcState .awaitingCommand (latchCommand c k s) := by
  rw [classifyAll_cons, classify_commandOf, classifyAll_cons, payloadOf_wireOf, classify,
    classifyWith_data _ _ _ _ (by rw [isCommand_eq_not_isDataValue, hd]; rfl) rfl,
    completeData_stopped _ _ (by simpa using hs)]
  rfl

end Sys2Proof.Machine
end

