-- ==== Sys2Proof/Laws/Sequence.lean ====
section
/-! SUPPORT. A run of CC-number frames (R154, R164): the k-th of m bytes lands in slot m - k. -/

namespace Sys2Proof.Machine

/-- `s` after a completed ControlChange command for channel `c`, before the frame's own effect. -/
abbrev ccPending (c : Chan) (s : State) : State := setFcState .awaitingCommand (latchCommand c .controlChange s)

theorem ccPending_channelAct (c : Chan) (bs : List Byte) (r : Channel) (s : State) :
    setFcState .awaitingCommand (latchCommand c .controlChange (channelAct c bs r (ccPending c s))) =
      channelAct c bs r (ccPending c s) := rfl

/-- One CC-number frame. -/
theorem classifyAll_ccFrame (c : Chan) (g : Payload) (bs : List Byte) (r : Channel) (s : State) (hs : s.started = true)
    (hg : isDataValue g = true) (hr : r.configState = .awaitCC) :
    classifyAll (ccFrame c g) (channelAct c bs r (ccPending c s)) = channelAct c bs (cfgCcRecord g r) (ccPending c s) := by
  have := classifyAll_frame .controlChange c g (channelAct c bs r (ccPending c s)) (by simpa using hs) hg
  rw [show ccFrame c g = [commandOf .controlChange c, wireOf g] from rfl, this, ccPending_channelAct]
  simp [frameBytes, frameRecord, hr]

/-- As many CC-number frames as the count says, in AwaitCC: the slots filled from the last byte down, the count at 0, the
velocity awaited, the rest of the record and of the state kept. -/
theorem classifyAll_ccFrames (c : Chan) (gs : List Payload) (hw : ∀ g ∈ gs, isDataValue g = true) (bs : List Byte)
    (r : Channel) (s : State) (hs : s.started = true) (hr : r.configState = .awaitCC)
    (hl : r.remaining.toNat = gs.length) (h0 : gs ≠ []) :
    ∃ r', classifyAll (gs.flatMap (ccFrame c)) (channelAct c bs r (ccPending c s)) = channelAct c bs r' (ccPending c s) ∧
      r'.configState = .awaitVel ∧ r'.remaining = 0#3 ∧ r'.midiChannel = r.midiChannel ∧ r'.ccMode = r.ccMode ∧
      r'.velocity = r.velocity ∧ r'.currentNote = r.currentNote ∧
      ∀ i : Slot, r'.slot i = if i.val < gs.length then gs[gs.length - 1 - i.val]? else r.slot i := by
  induction gs generalizing r with
  | nil => simp at h0
  | cons g gs ih =>
    have hrem : r.remaining ≠ 0#3 := by intro h; rw [h] at hl; simp at hl
    have hdec := decrement_toNat _ hrem
    rw [List.flatMap_cons, classifyAll_append, classifyAll_ccFrame c g bs r s hs (hw g (by simp)) hr]
    simp only [List.length_cons] at hl
    cases gs with
    | nil =>
      simp at hl
      refine ⟨cfgCcRecord g r, by simp [classifyAll], ?_, ?_, by simp, by simp, by simp, by simp, ?_⟩
      · rw [cfgCcRecord_configState, if_pos]; apply BitVec.eq_of_toNat_eq; simp; omega
      · rw [cfgCcRecord_remaining]; apply BitVec.eq_of_toNat_eq; simp; omega
      · intro i
        rw [cfgCcRecord_slot]
        by_cases h : i.val = 0
        · simp [h]; intro h2; omega
        · have h2 : ¬ i.val = (decrement r.remaining).toNat := by omega
          have h3 : i ≠ 0 := fun e => h (by rw [e]; rfl)
          simp [h2, h3]
    | cons g' gs' =>
      have hz : decrement r.remaining ≠ 0#3 := by intro h; rw [h] at hdec; simp at hdec hl; omega
      obtain ⟨r', e, h1, h2, h3, h4, h5, h6, h7⟩ := ih (fun x hx => hw x (by simp [hx])) (cfgCcRecord g r)
        (by rw [cfgCcRecord_configState, if_neg hz, hr]) (by rw [cfgCcRecord_remaining]; omega) (by simp)
      refine ⟨r', e, h1, h2, by simpa using h3, by simpa using h4, by simpa using h5, by simpa using h6, ?_⟩
      intro i
      rw [h7, cfgCcRecord_slot]
      simp only [List.length_cons] at *
      by_cases ha : i.val < gs'.length + 1
      · rw [if_pos ha, if_pos (by omega),
          show gs'.length + 1 + 1 - 1 - i.val = (gs'.length + 1 - 1 - i.val) + 1 by omega, List.getElem?_cons_succ]
      · rw [if_neg ha]
        by_cases hb : i.val = gs'.length + 1
        · rw [if_pos (by omega), if_pos (by omega), show gs'.length + 1 + 1 - 1 - i.val = 0 by omega]; simp
        · rw [if_neg (by omega), if_neg (by omega)]

end Sys2Proof.Machine
end

