-- ==== Sys2Proof/Tests/Slice0.lean ====
section
/-! SUPPORT. The model's own tests: the well-formedness smoke test, a word of every row written out from its encoding, single
steps whose results are the spec's vectors (`95_test_vectors.md`, named in each comment), and a witness for the hypotheses of
every obligation that has some. -/

namespace Sys2Proof.Tests

open Sys2Proof.Machine

/-! ## Well-formedness: an ill-formed term for each check -/

theorem test_wf_refuses_bad_data : (Instr.dataOrphan 0x70#7).wf = false ∧ (Instr.dataComplete 0x7F#7).wf = false ∧
    (Instr.ccSingle 0 0x70#7).wf = false ∧ (Instr.cfgCc 0 0x70#7).wf = false ∧ (Instr.cfgVel 0 0x70#7).wf = false := by decide
theorem test_wf_refuses_bad_fields : (Instr.noteOn 0 0#7).wf = false ∧ (Instr.noteOn 0 0x70#7).wf = false ∧
    (Instr.ccScaled 0 7#3 0#4).wf = false ∧ (Instr.cfgModeCh 0 7#3 0#4).wf = false ∧ (Instr.pc 0 0x6F#7).wf = false := by decide
theorem test_wf_refuses_bad_config : (Instr.config 0 0#4 [1, 2, 3, 4, 5, 6, 7] 0#7).wf = false ∧
    (Instr.config 0 0#4 [0x70] 0#7).wf = false ∧ (Instr.config 0 0#4 [] 0x70#7).wf = false := by decide
theorem test_wf_refuses_bad_messages : (Instr.mNoteOn 0#4 0#7 0#7).wf = false ∧ (Instr.mNoteOff 0#4 0x70#7).wf = false ∧
    (Instr.mCc 0#4 0x70#7 0#7).wf = false ∧ (Instr.mPc 0#4 0x6F#7).wf = false := by decide
theorem test_wf_accepts_edges : (Instr.dataOrphan 0x6F#7).wf = true ∧ (Instr.noteOn 3 1#7).wf = true ∧
    (Instr.ccScaled 3 6#3 15#4).wf = true ∧ (Instr.config 3 15#4 [1, 2, 3, 4, 5, 6] 0x6F#7).wf = true ∧
    (Instr.pc 3 0x6E#7).wf = true ∧ (Instr.mNoteOn 15#4 0x6F#7 0x7F#7).wf = true := by decide

/-! ## Decoding: a word of every row, bit by bit from the "encoding" entry of the opcode table (R72 to R84, R89) -/

/-- A context: the Classifier idle, and the addressed channel's configuration state and mode. -/
def ctx (cfg : ConfigState) (mode : CcMode) : DecodeCtx := ⟨.awaitingCommand, cfg, mode⟩

/-- Decoding after reset. -/
def dec (bytes : List Byte) : Option Instr := (decode DecodeCtx.reset bytes).toOption

theorem test_decode_pollNone : dec [0b01111111#8] = some .pollNone := by decide
theorem test_decode_dataOrphan : dec [0b11101111#8] = some (.dataOrphan 0b1101111#7) := by decide
theorem test_decode_dataComplete :
    (decode ⟨.awaitingData, .idle, .single⟩ [0b10111100#8]).toOption = some (.dataComplete 0b0111100#7) := by decide
theorem test_decode_cmdNote : dec [0b11110001#8] = some (.cmdNote 1) := by decide
theorem test_decode_cmdCc : dec [0b11110110#8] = some (.cmdCc 2) := by decide
theorem test_decode_cmdPc : dec [0b11111011#8] = some (.cmdPc 3) := by decide
theorem test_decode_rsvd : dec [0b11111100#8] = some .rsvd := by decide
theorem test_decode_start : dec [0b11111101#8] = some .start := by decide
theorem test_decode_stop : dec [0b11111110#8] = some .stop := by decide
theorem test_decode_tick : dec [0b11111111#8] = some .tick := by decide
theorem test_decode_noteOn : dec [0b11110010#8, 0b10111100#8] = some (.noteOn 2 0b0111100#7) := by decide
theorem test_decode_noteOff : dec [0b11110011#8, 0b10000000#8] = some (.noteOff 3) := by decide
theorem test_decode_ccSingle : dec [0b11110101#8, 0b10110111#8] = some (.ccSingle 1 0b0110111#7) := by decide
theorem test_decode_ccScaled : (decode (ctx .idle .scaled) [0b11110100#8, 0b10101111#8]).toOption =
    some (.ccScaled 0 0b010#3 0b1111#4) := by decide
theorem test_decode_cfgModeCh : (decode (ctx .awaitMC .single) [0b11110101#8, 0b10010010#8]).toOption =
    some (.cfgModeCh 1 0b001#3 0b0010#4) := by decide
theorem test_decode_cfgCc : (decode (ctx .awaitCC .scaled) [0b11110101#8, 0b11001010#8]).toOption =
    some (.cfgCc 1 0b1001010#7) := by decide
theorem test_decode_cfgVel : (decode (ctx .awaitVel .single) [0b11110101#8, 0b11100100#8]).toOption =
    some (.cfgVel 1 0b1100100#7) := by decide
theorem test_decode_pc : dec [0b11111011#8, 0b10000101#8] = some (.pc 3 0b0000101#7) := by decide
theorem test_decode_cfgEnter : dec [0b11111001#8, 0b11101111#8] = some (.cfgEnter 1) := by decide
/-- S13's bytes. -/
theorem test_decode_config : dec [0xF9#8, 0xEF#8, 0xF5#8, 0x92#8, 0xF5#8, 0xCA#8, 0xF5#8, 0xE4#8] =
    some (.config 1 2#4 [0x4A#7] 0x64#7) := by decide
theorem test_decode_mNoteOn : dec [0b10011001#8, 0b00111100#8, 0b01111111#8] = some (.mNoteOn 9#4 0x3C#7 0x7F#7) := by decide
theorem test_decode_mNoteOff : dec [0b10001001#8, 0b00111100#8, 0b01000000#8] = some (.mNoteOff 9#4 0x3C#7) := by decide
theorem test_decode_mCc : dec [0b10111001#8, 0b00000111#8, 0b01000100#8] = some (.mCc 9#4 7#7 0x44#7) := by decide
theorem test_decode_mPc : dec [0b11001001#8, 0b00000101#8] = some (.mPc 9#4 5#7) := by decide

theorem test_decode_refuses : decode DecodeCtx.reset [] = .error .noBytes ∧
    decode DecodeCtx.reset [0xFD#8, 0x80#8] = .error .notAChannelCommand ∧
    decode DecodeCtx.reset [0xF0#8, 0xF0#8] = .error .notADataByte ∧
    decode DecodeCtx.reset [0x80#8, 0x3C#8, 0x41#8] = .error .notAMessage ∧
    decode DecodeCtx.reset [0xF8#8, 0xEF#8, 0xF4#8, 0x90#8, 0xF4#8, 0x80#8] = .error .notAConfigSequence :=
  ⟨rfl, rfl, rfl, rfl, rfl⟩

/-! ## Single steps -/

/-- A channel as after reset, with velocity `v`. -/
def chan0 (v : Payload) : Channel := { Channel.reset with velocity := v }

/-- All channels as after reset with DEFAULT_VELOCITY 6F (the vectors' `DV = 6F`), started. -/
def s0 : State := { State.reset with ch := Vector.replicate 4 (chan0 0x6F#7), started := true }

/-- `s0` with channel 0's record changed. -/
def with0 (r : Channel) : State := s0.setChan 0 r

/-- A record of the vectors' form `(midi, mode, slots, vel, note, cfg)`. -/
def mk (midi : Nibble) (mode : CcMode) (cc : Vector (Option Payload) 7) (vel note : Payload) (cfg : ConfigState)
    (rem : Count := 0#3) : Channel := ⟨midi, mode, cc, vel, note, cfg, rem⟩

def unset : Vector (Option Payload) 7 := #v[none, none, none, none, none, none, none]

/-- What an outcome's state has in the output, and channel `c`'s record. -/
def result (c : Chan) (o : Host.Outcome State Fault Refusal) : Option (List Byte × Channel) :=
  match o with
  | .next t => some (t.midiOut, t.chan c)
  | .fault _ => none
  | .refused _ => none

/-- What an outcome's state has as `started`, `fc.state` and latch. -/
def flags (o : Host.Outcome State Fault Refusal) : Option (Bool × FcState × Chan × Kind) :=
  match o with
  | .next t => some (t.started, t.fcState, t.fcChan, t.fcKind)
  | .fault _ => none
  | .refused _ => none

/-- VR3 and VR9: the samples of BC and of 81, most significant first. -/
theorem test_poll_order :
    (poll { s0 with linkIn := [true, false, true, true, true, true, false, false] }).1 = some 0xBC#8 ∧
    (poll { s0 with linkIn := [true, false, false, false, false, false, false, true] }).1 = some 0x81#8 := by decide
/-- VR1: the gate, one pulse. -/
theorem test_poll_gate : poll { s0 with linkIn := [false, true] } = (none, { s0 with linkIn := [true], pulses := 1 }) := by
  decide
/-- S8: Note 3C with nothing sounding, then Note 40. -/
theorem test_noteOn : result 0 (exec (.noteOn 0 0x3C#7) s0) =
    some ([0x90#8, 0x3C#8, 0x7F#8], mk 0#4 .single unset 0x6F#7 0x3C#7 .idle) := by decide
theorem test_noteOn_over_note : result 0 (exec (.noteOn 0 0x40#7) (with0 (mk 0#4 .single unset 0x6F#7 0x3C#7 .awaitMC))) =
    some ([0x80#8, 0x3C#8, 0x40#8, 0x90#8, 0x40#8, 0x7F#8], mk 0#4 .single unset 0x6F#7 0x40#7 .idle) := by decide
/-- VT13. -/
theorem test_noteOff : result 3 (exec (.noteOff 3) (s0.setChan 3 (mk 15#4 .single unset 0x6F#7 0x6F#7 .idle))) =
    some ([0x8F#8, 0x6F#8, 0x40#8], mk 15#4 .single unset 0x6F#7 0#7 .idle) := by decide
/-- VT2. -/
theorem test_noteOff_silent : exec (.noteOff 0) s0 = .next s0 := by rfl
/-- VT5: the high field is part of the value in Single mode. -/
theorem test_ccSingle : (result 0 (exec (.ccSingle 0 0x55#7)
    (with0 (mk 0#4 .single #v[some 1, none, none, none, none, none, none] 0x6F#7 0#7 .idle)))).map Prod.fst =
    some [0xB0#8, 0x01#8, 0x61#8] := by decide
/-- VG8: controller number 0 is set, not UNSET. -/
theorem test_ccSingle_controller_zero : (result 0 (exec (.ccSingle 0 0#7)
    (with0 (mk 0#4 .single #v[some 0, none, none, none, none, none, none] 0x6F#7 0#7 .idle)))).map Prod.fst =
    some [0xB0#8, 0x00#8, 0x00#8] := by decide
/-- VT8 and VT7. -/
theorem test_ccScaled : (result 0 (exec (.ccScaled 0 0#3 5#4)
    (with0 (mk 0#4 .scaled #v[some 0x12, some 0x11, some 0x10, none, none, none, none] 0x6F#7 0#7 .idle)))).map Prod.fst =
    some [0xB0#8, 0x12#8, 0x2A#8] := by decide
theorem test_ccScaled_unset : (result 0 (exec (.ccScaled 0 3#3 5#4)
    (with0 (mk 0#4 .scaled #v[some 0x12, some 0x11, some 0x10, none, none, none, none] 0x6F#7 0#7 .idle)))).map Prod.fst =
    some [] := by decide
/-- VG11: the forced Note Off on the old MIDI channel. -/
theorem test_cfgModeCh : result 0 (exec (.cfgModeCh 0 0#3 4#4) (with0 (mk 3#4 .single unset 0x6F#7 0x3C#7 .awaitMC))) =
    some ([0x83#8, 0x3C#8, 0x40#8], mk 4#4 .single unset 0x6F#7 0#7 .awaitVel) := by decide
/-- VG3 after VG10's note: same MIDI channel, slots cleared, count 6. -/
theorem test_cfgModeCh_same_channel : result 0 (exec (.cfgModeCh 0 6#3 15#4)
    (with0 (mk 15#4 .single #v[some 1, none, none, none, none, none, none] 0x6F#7 0x3C#7 .awaitMC))) =
    some ([], mk 15#4 .scaled unset 0x6F#7 0x3C#7 .awaitCC 6#3) := by decide
/-- S14's first CC byte: count 3 fills slot 2. -/
theorem test_cfgCc : result 0 (exec (.cfgCc 0 0x10#7) (with0 (mk 2#4 .scaled unset 0x6F#7 0#7 .awaitCC 3#3))) =
    some ([], mk 2#4 .scaled #v[none, none, some 0x10, none, none, none, none] 0x6F#7 0#7 .awaitCC 2#3) := by decide
/-- S13's CC byte: the last one awaits the velocity. -/
theorem test_cfgCc_last : result 0 (exec (.cfgCc 0 0x4A#7) (with0 (mk 2#4 .single unset 0x6F#7 0#7 .awaitCC 1#3))) =
    some ([], mk 2#4 .single #v[some 0x4A, none, none, none, none, none, none] 0x6F#7 0#7 .awaitVel) := by decide
/-- S13's velocity byte. -/
theorem test_cfgVel : result 0 (exec (.cfgVel 0 0x64#7) (with0 (mk 2#4 .single unset 0x6F#7 0#7 .awaitVel))) =
    some ([], mk 2#4 .single unset 0x64#7 0#7 .idle) := by decide
/-- VG1. -/
theorem test_cfgEnter : result 0 (exec (.cfgEnter 0) s0) = some ([], mk 0#4 .single unset 0x6F#7 0#7 .awaitMC) := by decide
/-- VT9: the largest program; the note keeps sounding. -/
theorem test_pc : result 0 (exec (.pc 0 0x6E#7) (with0 (mk 0#4 .single unset 0x6F#7 0x3C#7 .awaitVel))) =
    some ([0xC0#8, 0x6E#8], mk 0#4 .single unset 0x6F#7 0x3C#7 .idle) := by decide
/-- VC4 and VC5: a completed frame, started and stopped. -/
theorem test_dataComplete : result 0 (exec (.dataComplete 0x3C#7) { s0 with fcState := .awaitingData }) =
    some ([0x90#8, 0x3C#8, 0x7F#8], mk 0#4 .single unset 0x6F#7 0x3C#7 .idle) := by decide
theorem test_dataComplete_stopped : result 0 (exec (.dataComplete 0x3C#7) { s0 with fcState := .awaitingData, started := false }) =
    some ([], chan0 0x6F#7) := by decide
/-- VC3: the latch is overwritten. -/
theorem test_cmdCc : flags (exec (.cmdCc 1) { s0 with fcState := .awaitingData, fcChan := 2 }) =
    some (true, .awaitingData, 1, .controlChange) := by decide
/-- VC9 and VG14: Start drops a pending frame, and abandons a sequence. -/
theorem test_start : flags (exec .start { s0 with fcState := .awaitingData, fcChan := 3, fcKind := .programChange, started := false }) =
    some (true, .awaitingCommand, 3, .programChange) := by decide
theorem test_start_abandons : result 2 (exec .start (s0.setChan 2 (mk 0#4 .scaled unset 0x6F#7 0x3C#7 .awaitCC 2#3))) =
    some ([], mk 0#4 .scaled unset 0x6F#7 0x3C#7 .idle 2#3) := by decide
/-- S10, with the order 0, 1, 2, 3. -/
theorem test_stop : (doStop [0, 1, 2, 3] ((with0 (mk 0#4 .single unset 0x6F#7 0x3C#7 .awaitCC 2#3)).setChan 2
    (mk 5#4 .single unset 0x6F#7 0x40#7 .idle))).midiOut = [0x80#8, 0x3C#8, 0x40#8, 0x85#8, 0x40#8, 0x40#8] := by decide
theorem test_stop_record : (doStop [0, 1, 2, 3] (with0 (mk 0#4 .single unset 0x6F#7 0x3C#7 .awaitCC 2#3))).chan 0 =
    mk 0#4 .single unset 0x6F#7 0#7 .idle 2#3 := by decide
/-- VC6 and VC7: a tick with RESERVED_PREEMPTS true and false. -/
theorem test_tick : (classifyWith true [0, 1, 2, 3] 0x7F#7 { s0 with fcState := .awaitingData }).fcState = .awaitingCommand ∧
    (classifyWith false [0, 1, 2, 3] 0x7F#7 { s0 with fcState := .awaitingData }).fcState = .awaitingData := by decide
/-- VC8. -/
theorem test_rsvd : (classifyWith true [0, 1, 2, 3] 0x7C#7 { s0 with fcState := .awaitingData }).fcState = .awaitingCommand := by
  decide
/-- S17: MIDI channel 9. -/
theorem test_mNoteOn : result 0 (exec (.mNoteOn 9#4 0x3C#7 0x44#7) s0) = some ([0x99#8, 0x3C#8, 0x44#8], chan0 0x6F#7) := by decide
theorem test_mNoteOff : result 0 (exec (.mNoteOff 9#4 0x3C#7) s0) = some ([0x89#8, 0x3C#8, 0x40#8], chan0 0x6F#7) := by decide
theorem test_mCc : result 0 (exec (.mCc 9#4 7#7 0x44#7) s0) = some ([0xB9#8, 0x07#8, 0x44#8], chan0 0x6F#7) := by decide
theorem test_mPc : result 0 (exec (.mPc 9#4 5#7) s0) = some ([0xC9#8, 0x05#8], chan0 0x6F#7) := by decide
/-- P2: the configuration sequence of S13. -/
theorem test_config : result 1 (exec (.config 1 2#4 [0x4A#7] 0x64#7) s0) =
    some ([], mk 2#4 .single #v[some 0x4A, none, none, none, none, none, none] 0x64#7 0#7 .idle) := by decide
/-- VG4: the largest sequence. -/
theorem test_config_six : result 0 (exec (.config 0 15#4 [1, 2, 3, 4, 5, 6] 0x6F#7) s0) =
    some ([], mk 15#4 .scaled #v[some 6, some 5, some 4, some 3, some 2, some 1, none] 0x6F#7 0#7 .idle) := by decide
/-- S18's spot values. -/
theorem test_scale111 : [0x00#7, 0x01#7, 0x06#7, 0x07#7, 0x37#7, 0x40#7, 0x64#7, 0x6E#7, 0x6F#7].map scale111 =
    [0x00#8, 0x01#8, 0x06#8, 0x08#8, 0x3E#8, 0x49#8, 0x72#8, 0x7D#8, 0x7F#8] := by decide
theorem test_scale15 : [0#4, 1#4, 7#4, 8#4, 14#4, 15#4].map scale15 = [0x00#8, 0x08#8, 0x3B#8, 0x43#8, 0x76#8, 0x7F#8] := by
  decide
/-- The first step after reset runs a placed word: START, and a frame that is dropped while stopped. -/
theorem test_withFetchWord : flags (step (State.reset.withFetchWord 8 0xFD)) = some (true, .awaitingCommand, 0, .note) ∧
    flags (step (State.reset.withFetchWord 16 0xF2BC)) = some (false, .awaitingCommand, 2, .note) := by decide

/-! ## Witnesses: each obligation's hypotheses are met, every clause at a boundary value -/

theorem witness_DecodeOfEncodeIsIdentity :
    (Instr.ccScaled 3 6#3 15#4).wf = true ∧ (Instr.ccScaled 3 6#3 15#4).selectedIn (ctx .idle .scaled) = true ∧
    (Instr.config 3 15#4 [1, 2, 3, 4, 5, 6] 0x6F#7).wf = true ∧
    (Instr.config 3 15#4 [1, 2, 3, 4, 5, 6] 0x6F#7).selectedIn (ctx .idle .single) = true := by decide
theorem witness_EncodeOfDecodeIsIdentity :
    decode DecodeCtx.reset [0xF3#8, 0xEF#8] = .ok (.noteOn 3 0x6F#7) ∧ Instr.noteOn 3 0x6F#7 ≠ .pollNone ∧
    (Instr.noteOn 3 0x6F#7).isMessage = false := ⟨rfl, by decide, rfl⟩
theorem witness_ByteClassIsDecidedByTheByte : 0x80#8 ≤ 0xEF#8 ∧ 0xEF#8 < 0xF0#8 ∧ 0x80#8 ≤ 0xF0#8 := by decide
theorem witness_SampledByteMap : (0x7F#8 : Byte) < 0x80#8 ∧ (0x6F#7 : Payload) < 0x70#7 := by decide
theorem witness_PollAssemblesMostSignificantFirst :
    { s0 with linkIn := [true, false, false, false, false, false, false, true] }.linkIn =
      true :: false :: false :: false :: false :: false :: false :: true :: [] := rfl
theorem witness_FirstSampleGatesThePoll : { s0 with linkIn := [false] }.linkIn = false :: [] := rfl
theorem witness_PolledByteHasFlagSet : ∃ t, poll { s0 with linkIn := byteSamples 0x80#8 } = (some 0x80#8, t) :=
  ⟨_, poll_presented _ 0x80#8 [] rfl rfl⟩
theorem witness_StepRunsTheDecodedByte : { s0 with linkIn := [false] }.linkIn = byteSamples 0x7F#8 ++ [] ∧
    decode ⟨s0.fcState, .idle, .single⟩ [0x7F#8] = .ok .pollNone ∧
    { s0 with linkIn := byteSamples 0xFF#8 }.linkIn = byteSamples 0xFF#8 ++ [] ∧
    decode ⟨s0.fcState, .idle, .single⟩ [0xFF#8] = .ok .tick := ⟨rfl, rfl, by simp, rfl⟩
theorem witness_PresentedBytesRunInOrder : (∀ B ∈ [0x80#8, 0xFF#8], B.msb = true) ∧ s0.linkClock = .high ∧
    (present [0x80#8, 0xFF#8] s0).linkIn = [0x80#8, 0xFF#8].flatMap byteSamples ++ s0.linkIn := ⟨by decide, rfl, rfl⟩
theorem witness_ConfigRunsAsItsBytes : (Instr.config 0 15#4 [1, 2, 3, 4, 5, 6] 0x6F#7).wf = true ∧ s0.linkClock = .high ∧
    (ready (.config 0 15#4 [1, 2, 3, 4, 5, 6] 0x6F#7) s0).linkIn =
      (encode (.config 0 15#4 [1, 2, 3, 4, 5, 6] 0x6F#7)).flatMap byteSamples ++ s0.linkIn := ⟨by decide, rfl, rfl⟩
theorem witness_ReadyRowRunsNext : (Instr.dataOrphan 0x6F#7).wf = true ∧ (Instr.dataOrphan 0x6F#7).isByteLevel = true ∧
    (Instr.cfgModeCh 3 6#3 15#4).wf = true ∧ (Instr.cfgModeCh 3 6#3 15#4).isFrameLevel = true := by decide
theorem witness_TableWordRunsNext : 16 ≤ 16 ∧ decodeTableWord 16 0xFBEE = some (.pc 3 0x6E#7) ∧
    (Instr.pc 3 0x6E#7).isMessage = false := by decide

/-- A state with a note sounding and its Note On in the output. -/
def sounding0 : State := { with0 (mk 0#4 .single unset 0x6F#7 0x3C#7 .idle) with midiOut := [0x90#8, 0x3C#8, 0x7F#8] }

theorem witness_StepKeepsTheInvariant : sounding0.Inv ∧ ∃ t, step sounding0 = .next t := by
  have hc : ∀ c, (sounding0.chan c).velocity = 0x6F#7 ∧ (sounding0.chan c).currentNote ≤ 0x6F#7 ∧
      (∀ i, (sounding0.chan c).slot i = none) ∧ (sounding0.chan c).configState = .idle := by decide
  refine ⟨⟨fun c => ⟨by simp [hc c], (hc c).2.1, by simp [hc c]⟩, fun h => absurd h (by decide), fun c =>
    ⟨by simp [hc c], by simp [hc c], (hc c).2.2.1 6, fun _ i _ => (hc c).2.2.1 i⟩, ?_, rfl⟩, ?_⟩
  · refine ⟨[.mNoteOn 0#4 0x3C#7 0x7F#7], rfl, fun n k hk => ?_⟩
    have h0 : sounding0.chan 0 = mk 0#4 .single unset 0x6F#7 0x3C#7 .idle := by decide
    have h1 : sounding0.chan 1 = chan0 0x6F#7 ∧ sounding0.chan 2 = chan0 0x6F#7 ∧ sounding0.chan 3 = chan0 0x6F#7 := by decide
    simp [sounding_eq, h0, h1, noteOns, noteOffs, Channel.sounds, mk, chan0, Channel.reset, hk.symm, List.countP_cons]
  · unfold step
    split
    rename_i i _ _
    cases i <;> exact ⟨_, rfl⟩

theorem witness_ClassifierTransitionTable : [3, 2, 1, 0].Perm Config.channels ∧ (0x6F#7 : Payload) < 0x70#7 ∧
    (0x70#7 : Payload) ≤ 0x70#7 ∧ (0x70#7 : Payload) < 0x7C#7 ∧ (0x70#7 : Payload) ≤ 0x7B#7 ∧ (0x7B#7 : Payload) < 0x7C#7 ∧
    (0x7C#7 : Payload) ≤ 0x7C#7 := by decide
theorem witness_OrphanDataIsDiscarded : (0x6F#7 : Payload) < 0x70#7 ∧ s0.fcState = .awaitingCommand ∧
    (present [0xEF#8] s0).linkIn = byteSamples (0x80#8 + (0x6F#7 : Payload).zeroExtend 8) ++ s0.linkIn := by decide
theorem witness_CommandBytePreemptsPendingCommand : (0x70#7 : Payload) ≤ 0x70#7 ∧
    ((0x70#7 : Payload) = 0x7C#7 ∨ (0x70#7 : Payload) = 0x7F#7 → false = true) ∧
    ((0x7F#7 : Payload) = 0x7C#7 ∨ (0x7F#7 : Payload) = 0x7F#7 → true = true) ∧
    { s0 with fcState := .awaitingData }.fcState = .awaitingData := by decide
theorem witness_StoppedFramesAreDropped : (Instr.noteOn 0 0x6F#7).isFrameLevel = true ∧
    (∃ d, Instr.dataComplete 0x6F#7 = .dataComplete d) ∧ { s0 with started := false }.started = false := ⟨rfl, ⟨_, rfl⟩, rfl⟩
theorem witness_DataByteRunsTheSelectedFrame :
    { s0 with fcKind := .note }.fcKind = .note ∧ (0x6F#7 : Payload) ≠ 0#7 ∧
    { s0 with fcKind := .programChange }.fcKind = .programChange ∧ (0x6E#7 : Payload) ≠ 0x6F#7 ∧
    { s0 with fcKind := .controlChange }.fcKind = .controlChange ∧
    ((with0 (mk 0#4 .single unset 0x6F#7 0#7 .awaitMC)).chan 0).configState = .awaitMC ∧
    ((with0 (mk 0#4 .single unset 0x6F#7 0#7 .awaitCC 6#3)).chan 0).configState = .awaitCC ∧
    ((with0 (mk 0#4 .single unset 0x6F#7 0#7 .awaitVel)).chan 0).configState = .awaitVel ∧
    (s0.chan 0).configState = .idle ∧ (s0.chan 0).ccMode = .single ∧
    ((with0 (mk 0#4 .scaled unset 0x6F#7 0#7 .idle)).chan 0).ccMode = .scaled := by decide
theorem witness_StartAndStopAreIdempotent : (∃ t, exec .start s0 = .next t) ∧ ∃ t, exec .stop s0 = .next t :=
  ⟨⟨_, rfl⟩, _, rfl⟩
theorem witness_NothingSoundsAfterStop : ∃ t u, exec .stop sounding0 = .next t ∧ exec .stop t = .next u := ⟨_, _, rfl, rfl⟩
/-- For every statement whose hypothesis is `started = true` alone: SentinelEntersConfiguration, VelocityByteEndsTheSequence,
NoteOffStopsTheNote, ScaledModeControlChange. -/
theorem witness_started : s0.started = true := rfl
theorem witness_ModeChannelByteRewritesSettings : s0.started = true ∧ (2#3 : Count) ≤ 2#3 ∧ (2#3 : Count) ≤ 7#3 ∧
    0#4 = (s0.chan 0).midiChannel ∧ 15#4 ≠ (s0.chan 0).midiChannel := by decide
theorem witness_CcNumberByteFillsItsSlot :
    (with0 (mk 0#4 .single unset 0x6F#7 0#7 .awaitCC 1#3)).started = true ∧
    ((with0 (mk 0#4 .single unset 0x6F#7 0#7 .awaitCC 1#3)).chan 0).remaining ≠ 0#3 ∧
    ((with0 (mk 0#4 .scaled unset 0x6F#7 0#7 .awaitCC 7#3)).chan 0).remaining ≠ 0#3 := by decide
theorem witness_CcNumberByteAtCountZeroStillRuns : s0.started = true ∧ (s0.chan 0).remaining = 0#3 := by decide
theorem witness_NoteAndProgramChangeAbandonFirst : s0.started = true ∧ (∃ d, Instr.noteOn 0 0x6F#7 = .noteOn 0 d) ∧
    ∃ p, Instr.pc 3 0x6E#7 = .pc 3 p := ⟨rfl, ⟨_, rfl⟩, _, rfl⟩
theorem witness_ConfigSequenceDeterminesTheSettings : (Instr.config 0 15#4 [] 0#7).wf = true ∧
    (Instr.config 0 0#4 [1] 0#7).wf = true ∧ (Instr.config 3 15#4 [1, 2, 3, 4, 5, 6] 0x6F#7).wf = true ∧
    s0.started = true ∧ 15#4 ≠ (s0.chan 0).midiChannel ∧ 0#4 = (s0.chan 0).midiChannel := by decide
theorem witness_RepeatedConfigSequenceChangesNothing : (Instr.config 0 15#4 [1, 2] 0x6F#7).wf = true ∧ s0.started = true ∧
    ∃ t u, exec (.config 0 15#4 [1, 2] 0x6F#7) s0 = .next t ∧ exec (.config 0 15#4 [1, 2] 0x6F#7) t = .next u :=
  ⟨by decide, rfl, _, _, rfl, rfl⟩
theorem witness_ConfigSequenceWhileStoppedIsLost : (Instr.config 3 15#4 [1, 2, 3, 4, 5, 6] 0x6F#7).wf = true ∧
    State.reset.started = false := by decide
/-- `s0` with a pending command of kind `k` for channel 0, whose record is `r`. -/
def pending (k : Kind) (r : Channel) : State := { with0 r with fcState := .awaitingData, fcKind := k }

theorem classify_pending (p : Payload) (k : Kind) (r : Channel) (hp : isCommand p = false) :
    (classify p (pending k r)).chan 0 = (completeData p (pending k r)).chan 0 := by
  rw [classify, classifyWith_data _ _ p _ hp rfl]

/-- Both ends of the count, and each branch of the statement's condition. -/
theorem witness_CountIsOnlySetByModeChannelByte :
    (∀ m ∈ [1#3, 6#3, 7#3], (((pending .controlChange (mk 0#4 .scaled unset 0#7 0#7 .awaitCC m)).chan 0).configState = .awaitCC →
      ((pending .controlChange (mk 0#4 .scaled unset 0#7 0#7 .awaitCC m)).chan 0).remaining ≠ 0#3)) ∧
    ((0x6F#7 : Payload) < 0x70#7 ∧ (pending .controlChange (chan0 0#7)).fcState = .awaitingData ∧
      (pending .controlChange (chan0 0#7)).started = true ∧ (pending .controlChange (chan0 0#7)).fcChan = 0 ∧
      (pending .controlChange (chan0 0#7)).fcKind = .controlChange) ∧
    ((pending .controlChange (mk 0#4 .single unset 0#7 0#7 .awaitMC)).chan 0).configState = .awaitMC ∧
    ((pending .controlChange (chan0 0#7)).chan 0).configState ≠ .awaitCC ∧ (pending .note (chan0 0#7)).fcKind ≠ .controlChange := by
  decide
theorem witness_ChannelIsTouchedOnlyByItsFramesStartStop :
    (classify 0x6F#7 (pending .note (chan0 0#7))).chan 0 ≠ (pending .note (chan0 0#7)).chan 0 := by
  rw [classify_pending _ _ _ rfl]; decide
theorem witness_SettingsAreWrittenOnlyByConfiguration :
    ¬ ((pending .controlChange (mk 0#4 .single unset 0#7 0#7 .awaitVel)).chan 0).sameSettings
      ((classify 0x6F#7 (pending .controlChange (mk 0#4 .single unset 0#7 0#7 .awaitVel))).chan 0) := by
  rw [classify_pending _ _ _ rfl]; unfold Channel.sameSettings; decide
theorem witness_Scale111IsTheTruncatedProduct : (0x6F#7 : Payload) ≤ 0x6F#7 ∧ (0x6E#7 : Payload) < 0x6F#7 := by decide
theorem witness_NoteOnSoundsTheNote : isNote 1#7 = true ∧ isNote 0x6F#7 = true ∧ s0.started = true ∧
    (s0.chan 0).velocity ≤ 0x6F#7 := by decide
theorem witness_SingleModeControlChange : isDataValue 0x6F#7 = true ∧ s0.started = true := by decide
theorem witness_UnsetSlotSuppressesOutput : s0.started = true ∧ (s0.chan 0).slot 0 = none ∧
    (6 : Slot).val = (6#3 : Count).toNat ∧ (s0.chan 0).slot 6 = none ∧
    ((with0 (mk 0#4 .single #v[some 0, none, none, none, none, none, none] 0x6F#7 0#7 .idle)).chan 0).slot 0 = some 0#7 := by
  decide
theorem witness_ProgramChangeEmitsItsNumber : isProgram 0x6E#7 = true ∧ s0.started = true := by decide
theorem witness_EveryProducibleMessageIsEmittedByAStep : (Instr.mNoteOn 15#4 0x6F#7 0x7F#7).isMessage = true ∧
    (Instr.mNoteOn 15#4 0x6F#7 0x7F#7).wf = true ∧
    (∀ n k v, Instr.mNoteOn 15#4 0x6F#7 0x7F#7 = .mNoteOn n k v ∨ Instr.mNoteOn 15#4 0x6F#7 0x7F#7 = .mCc n k v →
      ∃ u : Nat, u < 0x70 ∧ u * 0x7F / 0x6F = v.toNat) := by
  refine ⟨rfl, by decide, ?_⟩
  rintro n k v (h | h)
  · injection h with _ _ hv; subst hv; exact ⟨0x6F, by decide, by decide⟩
  · cases h
theorem witness_OutputOnlyGrowsAndIsBounded :
    (poll (present [0xFF#8] s0)).1 ≠ some 0xFE#8 ∧ (poll (present [0x00#8] s0)).1 = none := by decide
theorem witness_SilentWhileStopped : { s0 with started := false }.started = false ∧
    (∀ c, (({ s0 with started := false } : State).chan c).currentNote = 0#7 ∧
      (({ s0 with started := false } : State).chan c).configState = .idle) ∧
    ∃ t, step (present [0xFE#8] { s0 with started := false }) = .next t := ⟨rfl, by decide, _, rfl⟩
theorem witness_ChannelsDoNotInteract : (0x6F#7 : Payload) ≠ 0x7D#7 ∧ (0x6F#7 : Payload) ≠ 0x7E#7 ∧
    s0.started = (s0.setChan 1 (chan0 0#7)).started ∧ s0.fcState = (s0.setChan 1 (chan0 0#7)).fcState ∧
    s0.fcChan = (s0.setChan 1 (chan0 0#7)).fcChan ∧ s0.fcKind = (s0.setChan 1 (chan0 0#7)).fcKind ∧
    s0.chan s0.fcChan = (s0.setChan 1 (chan0 0#7)).chan s0.fcChan := by decide
theorem witness_FramingDependsOnlyOnTheBytes : s0.fcState = { s0 with started := false }.fcState ∧
    s0.linkIn = { s0 with started := false }.linkIn ∧ s0.pulses = { s0 with started := false }.pulses := ⟨rfl, rfl, rfl⟩

end Sys2Proof.Tests
end

section
/-! SUPPORT. No instruction and no input stops the machine (`00_scope.md` R14). -/

namespace Sys2Proof.Machine

/-- A step is `exec` of what the poll yields (R120). -/
theorem step_eq_exec_fetch (s : State) : step s = exec (fetch s).1 (fetch s).2 := rfl

/-- Every row's meaning answers a next state: a row has no fault and no refusal, whatever its operands and the state (R14). -/
theorem exec_answers_next (i : Instr) (s : State) : ∃ t, exec i s = .next t := by
  cases i <;> exact ⟨_, rfl⟩

/-- A step answers a next state, because the instruction it fetches does. -/
theorem step_answers_next (s : State) : ∃ t, step s = .next t := by
  rw [step_eq_exec_fetch]
  exact exec_answers_next _ _

/-- Settles O13: a step is `exec` of the fetched instruction, and `exec` answers a next state for each row. -/
theorem nothingStopsTheMachine : Obligations.NothingStopsTheMachine :=
  ⟨step_answers_next, exec_answers_next⟩

end Sys2Proof.Machine
end

section
/-! SUPPORT. Where each sample of a poll lands in the byte it returns (R53, R103). -/

namespace Sys2Proof.Machine

/-- A sample enters the accumulator at bit 0 (R103). -/
theorem shiftIn_getLsbD_zero (acc : Byte) (b : Bool) : (shiftIn acc b).getLsbD 0 = b := by
  simp [shiftIn]

/-- The bits that came before move up by one place (R103). -/
theorem shiftIn_getLsbD_succ (acc : Byte) (b : Bool) (j : Nat) (hj : j + 1 < 8) :
    (shiftIn acc b).getLsbD (j + 1) = acc.getLsbD j := by
  simp [shiftIn, hj, BitVec.getLsbD_eq_getElem (Nat.lt_of_succ_lt hj)]

/-- Past the gate a poll returns the seven further samples, shifted in after a 1 (R103). -/
theorem poll_presented_samples (s : State) (b6 b5 b4 b3 b2 b1 b0 : Bool) (rest : List Bool)
    (h : s.linkIn = true :: b6 :: b5 :: b4 :: b3 :: b2 :: b1 :: b0 :: rest) :
    poll s = (some ([b6, b5, b4, b3, b2, b1, b0].foldl shiftIn 1#8), afterPulses 8 rest s) := by
  have hgate := linkPulseAndSample_cons s true _ h
  have hbyte := readBits_presented (afterPulses 1 _ s) b6 b5 b4 b3 b2 b1 b0 rest rfl 1#8
  have hpoll : poll s = (some ([b6, b5, b4, b3, b2, b1, b0].foldl shiftIn 1#8), (poll s).2) :=
    Prod.ext (by rw [poll_def, hgate, if_pos rfl, hbyte]) rfl
  rw [hpoll, poll_some_state s _ _ hpoll, h]
  rfl

/-- Settles O7: a sample enters at bit 0, and every sample taken after it moves it up by one place. -/
theorem pollAssemblesMostSignificantFirst : Obligations.PollAssemblesMostSignificantFirst := by
  intro s b6 b5 b4 b3 b2 b1 b0 rest h
  refine ⟨_, poll_presented_samples s b6 b5 b4 b3 b2 b1 b0 rest h, ?_⟩
  simp [-BitVec.getLsbD_eq_getElem, shiftIn_getLsbD_zero, shiftIn_getLsbD_succ]

end Sys2Proof.Machine
end

section
/-! SUPPORT. The class of a received byte, read off its payload (R71). -/

namespace Sys2Proof

/-- The rows of a command byte, for channel `c` where the row has one (R72 to R74). -/
def commandRows (c : Chan) : List Instr := [.cmdNote c, .cmdCc c, .cmdPc c, .rsvd, .start, .stop, .tick]

theorem exists_decodeCommand_mem_commandRows (p : Payload) (h : isCommand p = true) :
    ∃ c, decodeCommand p ∈ commandRows c := by
  refine ⟨chanField p, ?_⟩
  rcases command_cases p h with ⟨-, hi⟩ | ⟨-, hi⟩ | ⟨-, hi⟩ | ⟨-, hi⟩ | ⟨-, k, -, hi⟩
  · simp [hi, commandRows]
  · simp [hi, commandRows]
  · simp [hi, commandRows]
  · simp [hi, commandRows]
  · cases k <;> simp [hi, commandRows]

theorem decodeByte_command (st : FcState) (p : Payload) (h : isCommand p = true) :
    decodeByte st (wireOf p) = decodeCommand p := by
  simp [decodeByte, decodePayload, h]

theorem not_data_of_mem_commandRows {i : Instr} {c : Chan} (h : i ∈ commandRows c) (d : Payload) :
    ¬ (i = .dataOrphan d ∨ i = .dataComplete d) := by
  rintro (rfl | rfl) <;> simp [commandRows] at h

/-- A byte with a command's payload is read as a command in both states of the Classifier, and no other byte is. -/
theorem decodeByte_mem_commandRows_iff (st : FcState) (p : Payload) :
    (∃ c, decodeByte st (wireOf p) ∈ commandRows c) ↔ isCommand p = true := by
  refine ⟨fun ⟨c, hc⟩ => ?_, fun h => ?_⟩
  · by_contra h
    have hd : isDataValue p = true := by simpa [isCommand_eq_not_isDataValue] using h
    rw [decodeByte_data st p hd] at hc
    cases st
    · exact not_data_of_mem_commandRows hc p (.inl rfl)
    · exact not_data_of_mem_commandRows hc p (.inr rfl)
  · rw [decodeByte_command st p h]
    exact exists_decodeCommand_mem_commandRows p h

/-- A byte with a data value as payload is read as data in both states of the Classifier, and no other byte is. -/
theorem decodeByte_eq_data_iff (st : FcState) (p : Payload) :
    (∃ d, decodeByte st (wireOf p) = .dataOrphan d ∨ decodeByte st (wireOf p) = .dataComplete d) ↔
      isDataValue p = true := by
  refine ⟨fun ⟨d, hd⟩ => ?_, fun h => ⟨p, ?_⟩⟩
  · by_contra h
    have hc : isCommand p = true := by simpa [isCommand_eq_not_isDataValue] using h
    obtain ⟨c, hm⟩ := (decodeByte_mem_commandRows_iff st p).mpr hc
    exact not_data_of_mem_commandRows hm d hd
  · rw [decodeByte_data st p h]
    cases st
    · exact .inl rfl
    · exact .inr rfl

theorem exists_eq_wireOf_of_flag (B : Byte) (h : 0x80#8 ≤ B) : ∃ p, B = wireOf p :=
  ⟨payloadOf B, (wireOf_payloadOf B (by simpa [BitVec.msb_eq_decide, BitVec.le_def] using h)).symm⟩

theorem le_wireOf_iff_isCommand (p : Payload) : 0xF0#8 ≤ wireOf p ↔ isCommand p = true := by revert p; decide
theorem wireOf_lt_iff_isDataValue (p : Payload) : wireOf p < 0xF0#8 ↔ isDataValue p = true := by revert p; decide
theorem wireOf_bits_ne_iff_isDataValue (p : Payload) :
    (wireOf p).extractLsb' 4 3 ≠ 0b111#3 ↔ isDataValue p = true := by revert p; decide
theorem wireOf_truncate_lt_iff_isDataValue (p : Payload) :
    (wireOf p).truncate 7 < 0x70#7 ↔ isDataValue p = true := by revert p; decide

/-- Settles O3: each of R71's tests says whether the payload is a data value, and so does the decoder, because the
Classifier's state only chooses between the two data rows. -/
theorem byteClassIsDecidedByTheByte : Obligations.ByteClassIsDecidedByTheByte := by
  intro st B hB
  obtain ⟨p, rfl⟩ := exists_eq_wireOf_of_flag B hB
  rw [le_wireOf_iff_isCommand, wireOf_lt_iff_isDataValue, wireOf_bits_ne_iff_isDataValue,
    wireOf_truncate_lt_iff_isDataValue]
  exact ⟨decodeByte_mem_commandRows_iff st p, decodeByte_eq_data_iff st p, Iff.rfl, Iff.rfl⟩

end Sys2Proof
end

section
/-! SUPPORT. The pulses of a poll, and the step it ends at when no byte is available (R100, R102). -/

namespace Sys2Proof.Machine

/-- Settles O9: the case split is on what the poll returns; what it returns fixes the state it leaves. -/
theorem pollDrivesOnePulseOrEight : Obligations.PollDrivesOnePulseOrEight := by
  intro s
  rcases hp : poll s with ⟨_ | B, t⟩
  · rw [poll_none_state s t hp]
    exact .inl ⟨_, rfl⟩
  · rw [poll_some_state s t B hp]
    exact .inr ⟨B, _, rfl⟩

/-- A step whose poll returns nothing runs `POLL.NONE` and stays in the state the poll left (R120). -/
theorem step_of_poll_none (s t : State) (h : poll s = (none, t)) : step s = .next t := by
  rw [step_eq_exec_fetch, fetch, h]
  rfl

/-- Settles O8: a presented 0 ends the poll at its gate, and the step adds nothing to a poll that returned nothing. -/
theorem firstSampleGatesThePoll : Obligations.FirstSampleGatesThePoll := by
  intro s rest h
  have hp := poll_presented_zero s rest h
  exact ⟨hp, step_of_poll_none s _ hp⟩

end Sys2Proof.Machine
end

section
/-! SUPPORT. A step as `Classify` of the received payload, and the two byte classes that reach no channel (R120, R127 to
R130). -/

namespace Sys2Proof

theorem truncate_eq_payloadOf (B : Byte) : B.truncate 7 = payloadOf B := by revert B; decide

/-- The flag bit above a payload is the sum with 0x80 (R11), since a payload has seven bits. -/
theorem add_zeroExtend_eq_wireOf (p : Payload) : 0x80#8 + p.zeroExtend 8 = wireOf p := by revert p; decide

/-- The fields of a channel command byte as a sum (R72): the kinds' bytes are four apart. -/
theorem commandByte_eq_add (kk : BitVec 2) (c : Chan) :
    commandByte kk c = 0xF0#8 + 4#8 * kk.zeroExtend 8 + BitVec.ofNat 8 c.val := by revert kk c; decide

theorem isCommand_eq_false_of_lt (p : Payload) (h : p < 0x70#7) : isCommand p = false :=
  decide_eq_false (BitVec.not_le.mpr h)

end Sys2Proof

namespace Sys2Proof.Machine

/-- A step whose poll returns a byte classifies its payload (R120): the byte has its flag set, so the decoder reads a
payload from it. -/
theorem step_of_poll_some (s t : State) (B : Byte) (h : poll s = (some B, t)) :
    step s = .next (classify (payloadOf B) t) := by
  have hflag := poll_some_msb s t B h
  simp only [step_eq_exec_fetch, fetch, h, decodeByte, if_pos hflag, exec_decodePayload]

/-- Settles O12: the case split is on what the poll returns. -/
theorem stepIsPollThenClassify : Obligations.StepIsPollThenClassify := by
  intro s
  rcases hp : poll s with ⟨_ | B, t⟩
  · exact step_of_poll_none s t hp
  · rw [step_of_poll_some s t B hp, ← truncate_eq_payloadOf]

@[simp] theorem exec_cmdNote (c : Chan) (s : State) : exec (.cmdNote c) s = .next (latchCommand c .note s) := rfl
@[simp] theorem exec_cmdCc (c : Chan) (s : State) : exec (.cmdCc c) s = .next (latchCommand c .controlChange s) := rfl
@[simp] theorem exec_cmdPc (c : Chan) (s : State) : exec (.cmdPc c) s = .next (latchCommand c .programChange s) := rfl
@[simp] theorem exec_dataOrphan (d : Payload) (s : State) : exec (.dataOrphan d) s = .next s := rfl

/-- Settles O22: each row is encoded by its kind's command byte, and its meaning is `latchCommand`, whose record update is
the whole change. -/
theorem channelCommandsOnlyLatch : Obligations.ChannelCommandsOnlyLatch := by
  intro c s
  have hbyte (kk : BitVec 2) := congrArg (fun B => [B]) (commandByte_eq_add kk c)
  exact ⟨hbyte 0b00#2, exec_cmdNote c s, hbyte 0b01#2, exec_cmdCc c s, hbyte 0b10#2, exec_cmdPc c s⟩

/-- A data byte classified with no command pending leaves the state as it was (R130). -/
theorem classify_orphan (d : Payload) (s : State) (hd : isCommand d = false) (hs : s.fcState = .awaitingCommand) :
    classify d s = s :=
  classifyWith_orphan _ _ d s hd hs

/-- Settles O23: the poll of the presented byte leaves `fc.state` as it was, so the payload is classified as an orphan. -/
theorem orphanDataIsDiscarded : Obligations.OrphanDataIsDiscarded := by
  intro s d rest hd hs hlink
  rw [add_zeroExtend_eq_wireOf] at hlink
  refine ⟨?_, exec_dataOrphan d s⟩
  rw [step_presented s (wireOf d) rest (msb_wireOf d) hlink, payloadOf_wireOf,
    classify_orphan d (afterPulses 8 rest s) (isCommand_eq_false_of_lt d hd) hs]

end Sys2Proof.Machine
end

section
/-! SUPPORT. The two configuration rows that take a data byte as it comes: the CC number (R154) and the velocity (R155). -/

namespace Sys2Proof

/-- The flag bit joined to a payload by a bitwise or (R11). -/
theorem or_zeroExtend_eq_wireOf (p : Payload) : 0x80#8 ||| p.zeroExtend 8 = wireOf p := by revert p; decide

/-- A Control Change frame with its command byte as a sum (R72) and its data byte as a flagged payload (R11, R76). -/
theorem ccFrame_eq_add_or (c : Chan) (d : Payload) :
    ccFrame c d = [0xF4#8 + BitVec.ofNat 8 c.val, 0x80#8 ||| d.zeroExtend 8] := by
  rw [or_zeroExtend_eq_wireOf, ccFrame, ccCommand, commandByte_eq_add]
  rfl

end Sys2Proof

namespace Sys2Proof.Machine

/-- The decremented count is 0 exactly when the count was 1, on its domain 1..7 (R154, R193). -/
theorem decrement_eq_zero_iff (r : Count) (h : r ≠ 0#3) : decrement r = 0#3 ↔ r = 1#3 := by
  have hdec := decrement_toNat r h
  rw [← BitVec.toNat_inj, ← BitVec.toNat_inj, BitVec.toNat_ofNat, BitVec.toNat_ofNat]
  omega

/-- CFG.CC while started: its frame emits nothing and leaves the record of R154. -/
theorem exec_cfgCc_started (c : Chan) (g : Payload) (s : State) (hs : s.started = true) :
    exec (.cfgCc c g) s = .next (afterFrame s c [] (cfgCcRecord g (s.chan c))) :=
  congrArg _ (completeFrame_afterFrame _ s c [] _ hs (cfgCc_eq c g _))

/-- CFG.VEL while started: its frame emits nothing and writes the velocity and the state of the sequence (R155). -/
theorem exec_cfgVel_started (c : Chan) (v : Payload) (s : State) (hs : s.started = true) :
    exec (.cfgVel c v) s = .next (afterFrame s c [] { s.chan c with velocity := v, configState := .idle }) :=
  congrArg _ (completeFrame_afterFrame _ s c [] _ hs (cfgVel_eq c v _))

/-- Settles O34: the record is `cfgCcRecord`'s; `decrement_toNat` gives the filled slot and the new count, and
`decrement_eq_zero_iff` says when the velocity is awaited. -/
theorem ccNumberByteFillsItsSlot : Obligations.CcNumberByteFillsItsSlot := by
  intro c g s hs hr
  have hdec := decrement_toNat _ hr
  refine ⟨ccFrame_eq_add_or c g, cfgCcRecord g (s.chan c), exec_cfgCc_started c g s hs, fun i => ?slot, ?count, ?state,
    cfgCcRecord_midiChannel .., cfgCcRecord_ccMode .., cfgCcRecord_velocity .., cfgCcRecord_currentNote ..⟩
  case slot => simp only [cfgCcRecord_slot, ← hdec, Nat.add_right_cancel_iff]
  case count => rw [cfgCcRecord_remaining, hdec]
  case state => simp only [cfgCcRecord_configState, decrement_eq_zero_iff _ hr]

/-- Settles O36: the row is a Control Change frame, and its record is the one its operation writes. -/
theorem velocityByteEndsTheSequence : Obligations.VelocityByteEndsTheSequence :=
  fun c v s hs => ⟨ccFrame_eq_add_or c v, exec_cfgVel_started c v s hs⟩

end Sys2Proof.Machine
end

section
/-! SUPPORT. The range, the order and the gaps of the rescaling functions, read off the truncated product (R181, R182). -/

namespace Sys2Proof.Machine

/-- A truncated product `n * 0x7F / d` with `n` in `0..d` is a MIDI value (R181, R182: "result in 0..0x7F"). -/
theorem le_of_toNat_eq_scaled {b : Byte} {n d : Nat} (hb : b.toNat = n * 0x7F / d) (hn : n ≤ d) : b ≤ 0x7F#8 := by
  rw [BitVec.le_def, hb]
  exact Nat.div_le_of_le_mul (Nat.mul_le_mul_right _ hn)

/-- One step of the argument adds `0x7F` to the product, more than the divisor `0x6F`, so the quotient grows. -/
theorem scale111_lt_scale111 {u v : Payload} (huv : u < v) (hv : v ≤ 0x6F#7) : scale111 u < scale111 v := by
  have hu : u ≤ 0x6F#7 := BitVec.le_trans (BitVec.le_of_lt huv) hv
  rw [BitVec.lt_def] at huv ⊢
  rw [scale111_toNat u hu, scale111_toNat v hv]
  omega

/-- Each `m` of the list is skipped because `m * 0x6F ..< (m + 1) * 0x6F` lies strictly between two consecutive multiples
of `0x7F`, so no product truncates to it. -/
theorem scale111_skips (v : Payload) (hv : v ≤ 0x6F#7) :
    (scale111 v).toNat ∉ [7, 15, 23, 31, 39, 47, 55, 63, 71, 79, 87, 95, 103, 111, 119, 126] := by
  have hgap : ∀ m ∈ [7, 15, 23, 31, 39, 47, 55, 63, 71, 79, 87, 95, 103, 111, 119, 126],
      m * 0x6F / 0x7F * 0x7F < m * 0x6F ∧ (m + 1) * 0x6F ≤ (m * 0x6F / 0x7F + 1) * 0x7F := by decide
  intro hm
  obtain ⟨hlow, hhigh⟩ := hgap _ hm
  have hval := scale111_toNat v hv
  have habove : (scale111 v).toNat * 0x6F / 0x7F < v.toNat := by omega
  have hbelow : v.toNat < (scale111 v).toNat * 0x6F / 0x7F + 1 := by omega
  exact Nat.not_le_of_lt habove (Nat.le_of_lt_succ hbelow)

/-- Settles O44: the product is `scale111_toNat`'s; the range, the order and the gaps follow from it. -/
theorem scale111IsTheTruncatedProduct : Obligations.Scale111IsTheTruncatedProduct :=
  fun v hv => ⟨scale111_toNat v hv, le_of_toNat_eq_scaled (scale111_toNat v hv) (BitVec.le_def.mp hv),
    fun _ huv => scale111_lt_scale111 huv hv, scale111_skips v hv⟩

/-- Settles O45: a nibble is at most `0xF`, the divisor of the product `scale15_toNat` gives. -/
theorem scale15IsTheTruncatedProduct : Obligations.Scale15IsTheTruncatedProduct :=
  fun x => ⟨scale15_toNat x, le_of_toNat_eq_scaled (scale15_toNat x) (Nat.le_of_lt_succ x.isLt)⟩

end Sys2Proof.Machine
end

section
/-! SUPPORT. A ControlChange frame while started, and the slot it resolves to (R187, R188, R213). -/

namespace Sys2Proof.Machine

@[simp] theorem ccBytes_none (r : Channel) (v : Byte) : ccBytes r none v = [] := rfl

theorem ccBytes_some_length (r : Channel) (g : Payload) (v : Byte) : (ccBytes r (some g) v).length = 3 := rfl

/-- A selector that names slot `i` resolves to what that slot holds (R50, R188). -/
theorem resolveSlot_eq_slot (r : Channel) (sel : Count) (i : Slot) (h : i.val = sel.toNat) :
    resolveSlot r sel = r.slot i := by
  have hlt : sel.toNat < 7 := h ▸ i.isLt
  have hsel : slotOf sel = some i := (dif_pos hlt).trans (congrArg some (Fin.ext h.symm))
  rw [resolveSlot, hsel]

/-- A frame that emits nothing and writes back the record it found only completes the Classifier's frame (R131). -/
theorem afterFrame_nil (s : State) (c : Chan) :
    afterFrame s c [] (s.chan c) = { s with fcState := .awaitingCommand } :=
  channelAct_nil c (setFcState .awaitingCommand s)

/-- CC.SINGLE while started: its frame emits the message of slot 0 and keeps the record (R187). -/
theorem exec_ccSingle_started (c : Chan) (d : Payload) (s : State) (hs : s.started = true) :
    exec (.ccSingle c d) s =
      .next (afterFrame s c (ccBytes (s.chan c) ((s.chan c).slot 0) (scale111 d)) (s.chan c)) :=
  congrArg _ (completeFrame_afterFrame _ s c _ _ hs (ccSingle_eq c d _))

/-- CC.SCALED while started: its frame emits the message of the selected slot and keeps the record (R188). -/
theorem exec_ccScaled_started (c : Chan) (sel : Count) (x : Nibble) (s : State) (hs : s.started = true) :
    exec (.ccScaled c sel x) s =
      .next (afterFrame s c (ccBytes (s.chan c) (resolveSlot (s.chan c) sel) (scale15 x)) (s.chan c)) :=
  congrArg _ (completeFrame_afterFrame _ s c _ _ hs (ccScaled_eq c sel x _))

/-- Settles O50: an UNSET slot makes the message empty, so the frame is `afterFrame_nil`'s; a slot that holds a controller
number, 0 included, gives a message of three bytes. -/
theorem unsetSlotSuppressesOutput : Obligations.UnsetSlotSuppressesOutput := by
  intro c d sel x s hs
  refine ⟨fun hunset => ?single, fun i hi hunset => ?scaled, fun hzero => ⟨_, exec_ccSingle_started c d s hs, ?length⟩⟩
  case single => rw [exec_ccSingle_started c d s hs, hunset, ccBytes_none, afterFrame_nil]
  case scaled =>
    rw [exec_ccScaled_started c sel x s hs, resolveSlot_eq_slot _ sel i hi, hunset, ccBytes_none, afterFrame_nil]
  case length =>
    rw [afterFrame_eq_act, channelAct_midiOut, setFcState_midiOut, List.length_append, hzero, ccBytes_some_length]

end Sys2Proof.Machine
end

section
/-! SUPPORT. The rows of the opcode table by level, each with its bytes: one for a byte-level row, a command byte and a data
byte for a frame-level row (R76, R79, R89). -/

namespace Sys2Proof

/-- A row is a byte, a frame, an outbound message or the pseudo-instruction (R88). -/
theorem level_cases (i : Instr) : i.isByteLevel = true ∨ i.isFrameLevel = true ∨ i.isMessage = true ∨
    ∃ c n gs vel, i = .config c n gs vel := by
  cases i with
  | config c n gs vel => exact .inr (.inr (.inr ⟨c, n, gs, vel, rfl⟩))
  | _ => simp [Instr.isByteLevel, Instr.isFrameLevel, Instr.isMessage]

/-- A well-formed frame-level row, with the kind, the channel and the data value of its frame (R76, R79). -/
inductive FrameRow : Kind → Chan → Payload → Instr → Prop where
  | noteOn (c : Chan) (d : Payload) (h : isNote d = true) : FrameRow .note c d (.noteOn c d)
  | noteOff (c : Chan) : FrameRow .note c 0#7 (.noteOff c)
  | ccSingle (c : Chan) (d : Payload) (h : isDataValue d = true) : FrameRow .controlChange c d (.ccSingle c d)
  | ccScaled (c : Chan) (sel : Count) (x : Nibble) (h : isReachableCount sel = true) :
      FrameRow .controlChange c (joinFields sel x) (.ccScaled c sel x)
  | cfgModeCh (c : Chan) (m : Count) (n : Nibble) (h : isReachableCount m = true) :
      FrameRow .controlChange c (joinFields m n) (.cfgModeCh c m n)
  | cfgCc (c : Chan) (g : Payload) (h : isDataValue g = true) : FrameRow .controlChange c g (.cfgCc c g)
  | cfgVel (c : Chan) (v : Payload) (h : isDataValue v = true) : FrameRow .controlChange c v (.cfgVel c v)
  | pc (c : Chan) (p : Payload) (h : isProgram p = true) : FrameRow .programChange c p (.pc c p)
  | cfgEnter (c : Chan) : FrameRow .programChange c Config.cfgSentinel (.cfgEnter c)

theorem exists_frameRow (i : Instr) (hf : i.isFrameLevel = true) (hw : i.wf = true) : ∃ k c d, FrameRow k c d i := by
  cases i with
  | noteOn c d => exact ⟨_, _, _, .noteOn c d hw⟩
  | noteOff c => exact ⟨_, _, _, .noteOff c⟩
  | ccSingle c d => exact ⟨_, _, _, .ccSingle c d hw⟩
  | ccScaled c sel x => exact ⟨_, _, _, .ccScaled c sel x hw⟩
  | cfgModeCh c m n => exact ⟨_, _, _, .cfgModeCh c m n hw⟩
  | cfgCc c g => exact ⟨_, _, _, .cfgCc c g hw⟩
  | cfgVel c v => exact ⟨_, _, _, .cfgVel c v hw⟩
  | pc c p => exact ⟨_, _, _, .pc c p hw⟩
  | cfgEnter c => exact ⟨_, _, _, .cfgEnter c⟩
  | _ => simp [Instr.isFrameLevel] at hf

theorem FrameRow.encode_eq {k : Kind} {c : Chan} {d : Payload} {i : Instr} (h : FrameRow k c d i) :
    encode i = [commandOf k c, wireOf d] := by
  cases h <;> rfl

theorem FrameRow.isDataValue {k : Kind} {c : Chan} {d : Payload} {i : Instr} (h : FrameRow k c d i) :
    isDataValue d = true := by
  cases h with
  | noteOn _ _ h => exact (isDataValue_of_isNote d h).1
  | pc _ _ h => exact (isDataValue_of_isProgram d h).1
  | ccScaled _ sel x h => rw [isDataValue_joinFields, h]
  | cfgModeCh _ m n h => rw [isDataValue_joinFields, h]
  | ccSingle _ _ h | cfgCc _ _ h | cfgVel _ _ h => exact h
  | noteOff | cfgEnter => rfl

/-- In a context that selects it, a frame-level row is the one R79 selects for its frame. -/
theorem FrameRow.selectFrame_eq {k : Kind} {c : Chan} {d : Payload} {i : Instr} (h : FrameRow k c d i) (ctx : DecodeCtx)
    (hs : i.selectedIn ctx = true) : selectFrame ctx.configState ctx.ccMode c k d = i := by
  cases h with
  | noteOn _ _ h => exact if_neg (isDataValue_of_isNote d h).2
  | pc _ _ h => exact if_neg (isDataValue_of_isProgram d h).2
  | noteOff | cfgEnter => rfl
  | ccSingle | ccScaled | cfgModeCh | cfgCc | cfgVel => simp_all [Instr.selectedIn, selectFrame]

/-- The channel command bytes, in both states of the Classifier (R72, R121). -/
theorem decodeByte_channelCommand (st : FcState) (c : Chan) : decodeByte st (noteCommand c) = .cmdNote c ∧
    decodeByte st (ccCommand c) = .cmdCc c ∧ decodeByte st (pcCommand c) = .cmdPc c := by
  cases st <;> (revert c; decide)

/-- The byte a byte-level row is read from, in every state of the Classifier that selects it (R89). -/
theorem byteRow_decode (i : Instr) (hb : i.isByteLevel = true) (hw : i.wf = true) :
    ∃ B, encode i = [B] ∧ ∀ ctx : DecodeCtx, i.selectedIn ctx = true → decodeByte ctx.fcState B = i := by
  cases i with
  | dataOrphan d =>
    refine ⟨_, rfl, fun ctx hs => ?_⟩
    rw [show ctx.fcState = .awaitingCommand by simpa [Instr.selectedIn] using hs, decodeByte_data _ d hw]
  | dataComplete d =>
    refine ⟨_, rfl, fun ctx hs => ?_⟩
    rw [show ctx.fcState = .awaitingData by simpa [Instr.selectedIn] using hs, decodeByte_data _ d hw]
  | cmdNote c => exact ⟨_, rfl, fun ctx _ => (decodeByte_channelCommand ctx.fcState c).1⟩
  | cmdCc c => exact ⟨_, rfl, fun ctx _ => (decodeByte_channelCommand ctx.fcState c).2.1⟩
  | cmdPc c => exact ⟨_, rfl, fun ctx _ => (decodeByte_channelCommand ctx.fcState c).2.2⟩
  | pollNone | rsvd | start | stop | tick => exact ⟨_, rfl, fun _ _ => rfl⟩
  | _ => simp [Instr.isByteLevel] at hb

end Sys2Proof
end

section
/-! SUPPORT. The configuration sequence, written and read (R78). -/

namespace Sys2Proof

/-- The data values of a sequence's CC frames are those its operands give. -/
theorem config_dataValues (c : Chan) (n : Nibble) (gs : List Payload) (vel : Payload)
    (hw : (Instr.config c n gs vel).wf = true) :
    gs.length ≤ 6 ∧ ∀ d ∈ modeChValue gs.length n :: (gs ++ [vel]), isDataValue d = true := by
  simp only [Instr.wf, Bool.and_eq_true, decide_eq_true_eq, List.all_eq_true] at hw
  obtain ⟨⟨hlen, hgs⟩, hvel⟩ := hw
  refine ⟨hlen, ?_⟩
  simp only [List.mem_cons, List.mem_append, List.not_mem_nil, or_false]
  rintro d (rfl | hd | rfl)
  · exact isDataValue_modeChValue _ n hlen
  · exact hgs d hd
  · exact hvel

theorem highField_modeChValue (m : Nat) (n : Nibble) (h : m ≤ 6) : (highField (modeChValue m n)).toNat = m := by
  rw [modeChValue, highField_joinFields, BitVec.toNat_ofNat]
  omega

/-- The sentinel's frame and CC frames for its channel are a sequence when the first data value's high field counts the
values between it and the last. -/
theorem decodeConfig_of_ccFrames (c : Chan) (d : Payload) (gs : List Payload) (vel : Payload) (rest : List Byte)
    (hr : ccFrames c rest = some (d :: (gs ++ [vel]))) (hlen : gs.length = (highField d).toNat) :
    decodeConfig (pcCommand c :: 0xEF#8 :: rest) = .ok (.config c (lowNibble d) gs vel) := by
  have he : dataValue? 0xEF#8 = some Config.cfgSentinel := rfl
  simp [decodeConfig, he, hr, hlen]

theorem decode_config (ctx : DecodeCtx) (c : Chan) (n : Nibble) (gs : List Payload) (vel : Payload)
    (hw : (Instr.config c n gs vel).wf = true) :
    decode ctx (encode (.config c n gs vel)) = .ok (.config c n gs vel) := by
  obtain ⟨hlen, hdata⟩ := config_dataValues c n gs vel hw
  have hdec : decode ctx (encode (.config c n gs vel)) = decodeConfig (encode (.config c n gs vel)) := rfl
  rw [hdec, encode_config]
  refine (decodeConfig_of_ccFrames c _ gs vel _ (ccFrames_flatMap c _ hdata) ?_).trans ?_
  · rw [highField_modeChValue _ n hlen]
  · rw [modeChValue, lowNibble_joinFields]

/-- The high field of a data value is 0..6 (R75). -/
theorem highField_le_of_isDataValue (d : Payload) (h : isDataValue d = true) : (highField d).toNat ≤ 6 := by
  revert d; decide

/-- What reads as a configuration sequence is the encoding of it, and it is well-formed. -/
theorem decodeConfig_ok (bytes : List Byte) (i : Instr) (h : decodeConfig bytes = .ok i) :
    encode i = bytes ∧ i.wf = true ∧ ∃ c n gs vel, i = .config c n gs vel := by
  fun_cases decodeConfig bytes with
  | case1 B1 B2 rest c hc d ds hds vel hvel hlen he =>
    have hi : .config c (lowNibble d) ds.dropLast vel = i := by
      simpa [decodeConfig, hc, hds, hvel, hlen, he] using h
    obtain ⟨hrest, hdata⟩ := ccFrames_some c rest _ hds
    have hgs : ds.dropLast ++ [vel] = ds := List.dropLast_append_getLast? vel hvel
    have hcount : ds.dropLast.length = (highField d).toNat := by rw [List.length_dropLast, hlen, Nat.add_sub_cancel]
    have hmode : modeChValue ds.dropLast.length (lowNibble d) = d := by
      rw [modeChValue, hcount, BitVec.ofNat_toNat, BitVec.setWidth_eq, joinFields_fields]
    subst hi
    refine ⟨?_, ?_, _, _, _, _, rfl⟩
    · rw [encode_config, hgs, hmode, ← hrest, channelCommand_some B1 c _ hc, (dataValue_some B2 _ he).1]
      rfl
    · have hle : ds.dropLast.length ≤ 6 := hcount ▸ highField_le_of_isDataValue d (hdata d (by simp))
      have hall : ∀ g ∈ ds, isDataValue g = true := fun g hg => hdata g (by simp [hg])
      simp only [Instr.wf, Bool.and_eq_true, decide_eq_true_eq, List.all_eq_true]
      exact ⟨⟨hle, fun g hg => hall g (List.mem_of_mem_dropLast hg)⟩, hall vel (List.mem_of_getLast? hvel)⟩
  | _ => simp_all [decodeConfig]

end Sys2Proof
end

section
/-! SUPPORT. The decoder and the encoder are inverse to each other (R76, R78, R79, R81 to R84, R89). -/

namespace Sys2Proof

theorem decode_byteRow (i : Instr) (ctx : DecodeCtx) (hb : i.isByteLevel = true) (hw : i.wf = true)
    (hs : i.selectedIn ctx = true) : decode ctx (encode i) = .ok i := by
  obtain ⟨B, he, hd⟩ := byteRow_decode i hb hw
  rw [he, decode, hd ctx hs]

theorem decode_frameRow (i : Instr) (ctx : DecodeCtx) (hf : i.isFrameLevel = true) (hw : i.wf = true)
    (hs : i.selectedIn ctx = true) : decode ctx (encode i) = .ok i := by
  obtain ⟨k, c, d, hrow⟩ := exists_frameRow i hf hw
  rw [hrow.encode_eq, decode_frame ctx k c d hrow.isDataValue, hrow.selectFrame_eq ctx hs]

theorem decode_message (i : Instr) (ctx : DecodeCtx) (hm : i.isMessage = true) : decode ctx (encode i) = .ok i := by
  cases i with
  | mNoteOn n k v => simp only [encode, decode, message3_mNoteOn]
  | mNoteOff n k => simp only [encode, decode, message3_mNoteOff]
  | mCc n g v => simp only [encode, decode, message3_mCc]
  | mPc n p => simp only [encode, decode, message2_mPc]
  | _ => simp [Instr.isMessage] at hm

/-- Settles O1: a row is a byte, a frame, a message or a configuration sequence, and each of the four is read back. -/
theorem decodeOfEncodeIsIdentity : Obligations.DecodeOfEncodeIsIdentity := by
  intro i ctx hw hs
  rcases level_cases i with hb | hf | hm | ⟨c, n, gs, vel, rfl⟩
  · exact decode_byteRow i ctx hb hw hs
  · exact decode_frameRow i ctx hf hw hs
  · exact decode_message i ctx hm
  · exact decode_config ctx c n gs vel hw

/-- A command byte's row has no operand to check and no condition: every context selects it. -/
theorem commandRows_spec {i : Instr} {c : Chan} (h : i ∈ commandRows c) :
    (∀ ctx, i.selectedIn ctx = true) ∧ i.wf = true ∧ i.isByteLevel = true := by
  simp only [commandRows, List.mem_cons, List.not_mem_nil, or_false] at h
  rcases h with rfl | rfl | rfl | rfl | rfl | rfl | rfl <;> exact ⟨fun _ => rfl, rfl, rfl⟩

theorem encode_decodeCommand (p : Payload) (h : isCommand p = true) : encode (decodeCommand p) = [wireOf p] := by
  revert p; decide

theorem isDataValue_of_not_command (p : Payload) (h : isCommand p = false) : isDataValue p = true := by
  simpa [isCommand_eq_not_isDataValue] using h

/-- A wire byte is the encoding of what it reads as, and that is a well-formed byte-level row selected in the state. -/
theorem decodeByte_wireOf_spec (ctx : DecodeCtx) (p : Payload) :
    encode (decodeByte ctx.fcState (wireOf p)) = [wireOf p] ∧
    (decodeByte ctx.fcState (wireOf p)).selectedIn ctx = true ∧ (decodeByte ctx.fcState (wireOf p)).wf = true ∧
    (decodeByte ctx.fcState (wireOf p)).isByteLevel = true := by
  cases hc : isCommand p with
  | true =>
    rw [decodeByte_command _ p hc]
    obtain ⟨c, hrow⟩ := exists_decodeCommand_mem_commandRows p hc
    obtain ⟨hsel, hw, hb⟩ := commandRows_spec hrow
    exact ⟨encode_decodeCommand p hc, hsel ctx, hw, hb⟩
  | false =>
    have hd := isDataValue_of_not_command p hc
    rw [decodeByte_data _ p hd]
    cases hst : ctx.fcState with
    | awaitingCommand => exact ⟨rfl, by simp [Instr.selectedIn, hst], hd, rfl⟩
    | awaitingData => exact ⟨rfl, by simp [Instr.selectedIn, hst], hd, rfl⟩

/-- A byte that reads as more than a poll without a byte has its flag set (R89). -/
theorem exists_wireOf_of_decodeByte (st : FcState) (B : Byte) (h : decodeByte st B ≠ .pollNone) : ∃ p, B = wireOf p := by
  have hm : B.msb = true := by
    by_contra hm
    exact h (if_neg hm)
  exact ⟨payloadOf B, (wireOf_payloadOf B hm).symm⟩

theorem decodeFrame_ok (ctx : DecodeCtx) (B1 B2 : Byte) (i : Instr) (h : decodeFrame ctx B1 B2 = .ok i) :
    encode i = [B1, B2] ∧ i.selectedIn ctx = true ∧ i.wf = true ∧ i.isFrameLevel = true := by
  fun_cases decodeFrame ctx B1 B2 with
  | case3 c k hc d hd =>
    have hi : selectFrame ctx.configState ctx.ccMode c k d = i := by simpa [decodeFrame, hc, hd] using h
    rw [← hi, channelCommand_some B1 c k hc, (dataValue_some B2 d hd).1]
    exact selectFrame_spec ctx c k d (dataValue_some B2 d hd).2
  | _ => simp_all [decodeFrame]

/-- What the decoder reads, by the reader it used: a byte, a frame, an outbound message or a configuration sequence. -/
theorem decode_ok_cases (ctx : DecodeCtx) (bytes : List Byte) (i : Instr) (h : decode ctx bytes = .ok i) :
    (∃ B, bytes = [B] ∧ decodeByte ctx.fcState B = i) ∨ (∃ B1 B2, bytes = [B1, B2] ∧ decodeFrame ctx B1 B2 = .ok i) ∨
    (encode i = bytes ∧ i.isMessage = true ∧ ∀ ctx, i.selectedIn ctx = true) ∨ decodeConfig bytes = .ok i := by
  fun_cases decode ctx bytes with
  | case2 B => exact .inl ⟨B, rfl, Except.ok.inj h⟩
  | case3 B1 B2 m hm =>
    have hi : m = i := by simpa [decode, hm] using h
    exact .inr (.inr (.inl (hi ▸ message2_some B1 B2 m hm)))
  | case4 B1 B2 hm =>
    have hf : decodeFrame ctx B1 B2 = .ok i := by simpa [decode, hm] using h
    exact .inr (.inl ⟨B1, B2, rfl, hf⟩)
  | case5 a b c m hm =>
    have hi : m = i := by simpa [decode, hm] using h
    exact .inr (.inr (.inl (hi ▸ message3_some a b c m hm)))
  | case7 B1 B2 B3 B4 rest => exact .inr (.inr (.inr h))
  | _ => simp_all [decode]

/-- Settles O2: each of the decoder's readers inverts the encoder on what it accepts. -/
theorem encodeOfDecodeIsIdentity : Obligations.EncodeOfDecodeIsIdentity := by
  intro ctx bytes i h hne
  rcases decode_ok_cases ctx bytes i h with ⟨B, rfl, hi⟩ | ⟨B1, B2, rfl, hf⟩ | ⟨he, hm, hs⟩ | hc
  · obtain ⟨p, rfl⟩ := exists_wireOf_of_decodeByte ctx.fcState B (hi ▸ hne)
    obtain ⟨he, hs, hw, -⟩ := decodeByte_wireOf_spec ctx p
    exact hi ▸ ⟨he, hs, fun _ => hw⟩
  · obtain ⟨he, hs, hw, -⟩ := decodeFrame_ok ctx B1 B2 i hf
    exact ⟨he, hs, fun _ => hw⟩
  · exact ⟨he, hs ctx, fun hn => absurd hm (by simp [hn])⟩
  · obtain ⟨he, hw, c, n, gs, vel, rfl⟩ := decodeConfig_ok bytes i hc
    exact ⟨he, rfl, fun _ => hw⟩

/-- An inbound row read from one byte or two is byte-level or frame-level, and well-formed. -/
theorem decode_short_inbound (ctx : DecodeCtx) (bytes : List Byte) (i : Instr) (h : decode ctx bytes = .ok i)
    (hm : i.isMessage = false) (hlen : bytes.length ≤ 2) :
    i.wf = true ∧ (i.isByteLevel = true ∨ i.isFrameLevel = true) := by
  rcases decode_ok_cases ctx bytes i h with ⟨B, rfl, hi⟩ | ⟨B1, B2, rfl, hf⟩ | ⟨-, hm', -⟩ | hc
  · by_cases hn : i = .pollNone
    · rw [hn]; exact ⟨rfl, .inl rfl⟩
    · obtain ⟨p, rfl⟩ := exists_wireOf_of_decodeByte ctx.fcState B (hi ▸ hn)
      obtain ⟨-, -, hw, hb⟩ := decodeByte_wireOf_spec ctx p
      exact hi ▸ ⟨hw, .inl hb⟩
  · obtain ⟨-, -, hw, hf⟩ := decodeFrame_ok ctx B1 B2 i hf
    exact ⟨hw, .inr hf⟩
  · simp [hm] at hm'
  · obtain ⟨he, -, c, n, gs, vel, rfl⟩ := decodeConfig_ok bytes i hc
    have hbytes : bytes.length = 6 + 2 * gs.length := he ▸ Laws.EncodedLength.config c n gs vel
    omega

/-! ## The spec's own words, and the lengths -/

/-- Settles O4: below 0x80 bit 7 is 0; above it the byte is a flagged data value, a channel command byte or a transport
byte. -/
theorem sampledByteMap : Obligations.SampledByteMap := by
  refine ⟨fun st B hB => ?none, fun d hd => ?data, fun st c => ?channel, fun st => ⟨?_, ?_, ?_, ?_⟩⟩
  case none => exact if_neg (by simpa [BitVec.msb_eq_decide, BitVec.lt_def] using hB)
  case data =>
    have hd' : isDataValue d = true := decide_eq_true hd
    rw [add_zeroExtend_eq_wireOf, decodeByte_data _ d hd', decodeByte_data _ d hd']
    exact ⟨rfl, rfl⟩
  case channel =>
    have h := decodeByte_channelCommand st c
    rw [noteCommand, ccCommand, pcCommand, commandByte_eq_add, commandByte_eq_add, commandByte_eq_add] at h
    exact h
  all_goals rfl

/-- Settles O5: each word is read by computation; the sequence's eight bytes are the encoding of its operands. -/
theorem specWordsDecode : Obligations.SpecWordsDecode :=
  ⟨rfl, rfl, rfl, rfl, rfl, rfl, rfl, rfl, decode_config _ 1 2#4 [0x4A#7] 0x64#7 rfl, rfl⟩

/-- Settles O6: the case split is on the row. -/
theorem encodedLengthPerRow : Obligations.EncodedLengthPerRow := by
  intro i
  cases i with
  | config c n gs vel => exact Laws.EncodedLength.config c n gs vel
  | _ => rfl

end Sys2Proof
end


section
/-! SUPPORT. The invariant of R37 at reset and over a step. -/

namespace Sys2Proof.Machine

/-! ## Reset (R38) -/

theorem reset_chan (c : Chan) : State.reset.chan c = Channel.reset := by
  simp [State.chan, State.reset]

theorem Channel.reset_slot (i : Slot) : Channel.reset.slot i = none := by
  simp [Channel.slot, Channel.reset]

/-- Every value DEFAULT_VELOCITY can have is a protocol value (R8). -/
theorem Channel.reset_velocity_le : Channel.reset.velocity ≤ 0x6F#7 := by
  have hlt := Config.defaultVelocity.isLt
  rw [BitVec.le_def, Channel.reset, BitVec.toNat_ofNat, BitVec.toNat_ofNat]
  omega

/-- Settles O18: all four channels hold the record `Channel.reset`. -/
theorem resetLeavesTheStatedValues : Obligations.ResetLeavesTheStatedValues := by
  refine ⟨fun c => ?_, rfl, rfl, rfl, rfl⟩
  rw [reset_chan]
  exact ⟨rfl, rfl, Channel.reset_slot, rfl, Channel.reset_velocity_le, rfl, rfl, rfl⟩

/-- The output is empty at reset and no note sounds. -/
theorem reset_outputOk : State.reset.OutputOk := by
  refine ⟨[], parseMessages_nil, fun n k hk => ?_⟩
  simp [noteOns, noteOffs, sounding_eq, reset_chan, Channel.sounds, Channel.reset, hk.symm]

/-- Settles O19: the record `Channel.reset` is in range, idle and silent, with no slot set. -/
theorem invariantHoldsAtReset : Obligations.InvariantHoldsAtReset where
  inRange c := by
    rw [reset_chan]
    exact ⟨Channel.reset_velocity_le, by decide, by simp [Channel.reset_slot]⟩
  stoppedQuiet _ c := by
    rw [reset_chan]
    exact ⟨rfl, rfl⟩
  countOk c := by
    rw [reset_chan]
    exact ⟨nofun, nofun, Channel.reset_slot 6, fun _ i _ => Channel.reset_slot i⟩
  outputOk := reset_outputOk
  clockHigh := rfl

/-! ## What keeps the invariant -/

/-- The output's invariant reads `midi_out` and every channel's MIDI channel and sounding note. -/
theorem outputOk_congr (s t : State) (hout : t.midiOut = s.midiOut)
    (hc : ∀ c, (t.chan c).midiChannel = (s.chan c).midiChannel ∧ (t.chan c).currentNote = (s.chan c).currentNote)
    (h : s.OutputOk) : t.OutputOk := by
  obtain ⟨ms, hms, hbal⟩ := h
  refine ⟨ms, by rw [hout, hms], fun n k hk => ?_⟩
  simpa [sounding, hc] using hbal n k hk

/-- The Stop sweep keeps the balance: a swept channel's Note Off goes with its note. -/
theorem outputOk_foldl_sweepChannel (order : List Chan) (s : State) (h : s.OutputOk) :
    (order.foldl sweepChannel s).OutputOk := by
  induction order generalizing s with
  | nil => exact h
  | cons c rest ih =>
    refine ih _ ?_
    rw [sweepChannel_eq]
    exact outputOk_channelAct c _ _ s h (accounts_noteOff _ _ rfl)

theorem inv_setFcState (f : FcState) (s : State) (h : s.Inv) : (setFcState f s).Inv :=
  ⟨h.inRange, h.stoppedQuiet, h.countOk, h.outputOk, h.clockHigh⟩

theorem inv_latchCommand (c : Chan) (k : Kind) (s : State) (h : s.Inv) : (latchCommand c k s).Inv :=
  ⟨h.inRange, h.stoppedQuiet, h.countOk, h.outputOk, h.clockHigh⟩

theorem inv_reservedByte (preempts : Bool) (s : State) (h : s.Inv) : (reservedByte preempts s).Inv := by
  cases preempts with
  | false => exact h
  | true => exact inv_setFcState _ s h

theorem inv_afterPulses (n : Nat) (rest : List Bool) (s : State) (h : s.Inv) : (afterPulses n rest s).Inv :=
  ⟨h.inRange, h.stoppedQuiet, h.countOk, h.outputOk, rfl⟩

theorem idle_countOk (r : Channel) (h : r.CountOk) : ({ r with configState := .idle } : Channel).CountOk :=
  ⟨nofun, nofun, h.lastSlot, h.singleSlots⟩

theorem inv_doStart (s : State) (h : s.Inv) : (doStart s).Inv := by
  obtain ⟨hchan, hout, hstarted, -, -, -, hclock, -, -⟩ := doStart_spec s
  refine ⟨fun c => ?_, fun hs => ?_, fun c => ?_, ?_, hclock.trans h.clockHigh⟩
  · rw [hchan]
    exact ⟨(h.inRange c).velocity, (h.inRange c).currentNote, (h.inRange c).slots⟩
  · rw [hstarted] at hs
    cases hs
  · rw [hchan]
    exact idle_countOk _ (h.countOk c)
  · exact outputOk_congr s _ hout (fun c => by rw [hchan]; exact ⟨rfl, rfl⟩) h.outputOk

theorem inv_doStop (order : List Chan) (hn : order.Nodup) (hm : ∀ c, c ∈ order) (s : State) (h : s.Inv) :
    (doStop order s).Inv := by
  obtain ⟨hchan, -, -, -, -, -, hclock, -, -⟩ := doStop_spec order hn hm s
  refine ⟨fun c => ?_, fun _ c => ?_, fun c => ?_, ?_, hclock.trans h.clockHigh⟩
  · rw [hchan]
    exact quiet_inRange _ (h.inRange c)
  · rw [hchan]
    exact ⟨rfl, rfl⟩
  · rw [hchan]
    exact quiet_countOk _ (h.countOk c)
  · exact outputOk_congr _ _ rfl (fun _ => ⟨rfl, rfl⟩) (outputOk_foldl_sweepChannel order s h.outputOk)

/-- An act on one channel of a started machine keeps the invariant when its record does and its bytes account for it. -/
theorem inv_channelAct (c : Chan) (bs : List Byte) (r : Channel) (s : State) (h : s.Inv) (hs : s.started = true)
    (hr : r.InRange) (hc : r.CountOk) (hb : Accounts bs (s.chan c) r) : (channelAct c bs r s).Inv := by
  refine ⟨fun c' => ?_, fun hf => ?_, fun c' => ?_, outputOk_channelAct c bs r s h.outputOk hb, h.clockHigh⟩
  · rw [channelAct_chan]
    split
    · exact hr
    · exact h.inRange c'
  · rw [channelAct_started, hs] at hf
    cases hf
  · rw [channelAct_chan]
    split
    · exact hc
    · exact h.countOk c'

/-- A received payload keeps the invariant, for either value of RESERVED_PREEMPTS and any order of the Stop sweep. -/
theorem inv_classifyWith (preempts : Bool) (order : List Chan) (hn : order.Nodup) (hm : ∀ c, c ∈ order) (p : Payload)
    (s : State) (h : s.Inv) : (classifyWith preempts order p s).Inv := by
  rcases classifyWith_cases preempts order p s with
    ⟨-, e⟩ | ⟨-, e⟩ | ⟨-, e⟩ | ⟨-, -, k, -, e⟩ | ⟨-, -, e⟩ | ⟨-, -, -, e⟩ | ⟨hdata, -, hs, e⟩ <;> rw [e]
  · exact inv_doStart _ (inv_setFcState _ s h)
  · exact inv_doStop order hn hm _ (inv_setFcState _ s h)
  · exact inv_reservedByte preempts s h
  · exact inv_latchCommand _ k s h
  · exact h
  · exact inv_setFcState _ s h
  · have hp : p ≤ 0x6F#7 := (isDataValue_iff p).mp (isDataValue_of_not_command p hdata)
    have hr := h.inRange s.fcChan
    exact inv_channelAct _ _ _ _ (inv_setFcState _ s h) hs (frameRecord_inRange _ p _ hr hp)
      (frameRecord_countOk _ p _ (h.countOk s.fcChan) hp) (frameBytes_accounts _ p _ hr hp)

/-- Settles O20: a poll writes the link fields only, and what a received payload can do keeps the invariant case by
case. -/
theorem stepKeepsTheInvariant : Obligations.StepKeepsTheInvariant := by
  intro s t h hstep
  rcases step_cases s t hstep with ⟨rest, -, rfl⟩ | ⟨B, rest, -, -, rfl⟩
  · exact inv_afterPulses 1 rest s h
  · exact inv_classifyWith _ _ nodup_sweepOrder mem_sweepOrder _ _ (inv_afterPulses 8 rest s h)

end Sys2Proof.Machine
end


section
/-! SUPPORT. The poll's byte, and a step on a byte the remote presents (R53, R104, R120). -/

namespace Sys2Proof.Machine

/-- Settles O10: bit 7 of a polled byte is 1, so it is at least 0x80. -/
theorem polledByteHasFlagSet : Obligations.PolledByteHasFlagSet := by
  intro s t B h
  simpa [BitVec.msb_eq_decide, BitVec.le_def] using poll_some_msb s t B h

/-- Settles O11: one byte is decoded by `decodeByte`, which is what `fetch` reads from a presented byte. -/
theorem stepRunsTheDecodedByte : Obligations.StepRunsTheDecodedByte := by
  intro s B rest i hlink hdec
  have hi : decodeByte s.fcState B = i := Except.ok.inj hdec
  rw [step_eq_exec_fetch, fetch_presented s B rest hlink, hi]

theorem reservedByte_eq (preempts : Bool) (s : State) :
    reservedByte preempts s = { s with fcState := if preempts then .awaitingCommand else s.fcState } := by
  cases preempts <;> rfl

/-- Settles O24: TICK and RSVD are `reservedByte`, and `POLL.NONE` answers the state it was given. -/
theorem bytesWithoutEventWriteAtMostFcState : Obligations.BytesWithoutEventWriteAtMostFcState :=
  fun s => ⟨congrArg _ (reservedByte_eq _ s), congrArg _ (reservedByte_eq _ s), rfl⟩

/-! ## Runs of presented bytes (R51, R58, R61) -/

theorem afterPulses_zero (s : State) (hclock : s.linkClock = .high) : afterPulses 0 s.linkIn s = s := by
  rw [afterPulses, ← hclock]
  rfl

/-- Settles O14, by induction on the bytes: the step of the first one leaves the rest presented, with the clock high again,
and `Classify` commutes with the pulses of the later polls. -/
theorem presentedBytesRunInOrder : Obligations.PresentedBytesRunInOrder := by
  intro bytes
  induction bytes with
  | nil =>
    rintro s rest - hclock hlink
    rw [show rest = s.linkIn from hlink.symm]
    exact congrArg _ (afterPulses_zero s hclock).symm
  | cons B bs ih =>
    intro s rest hmsb hclock hlink
    rw [List.flatMap_cons, List.append_assoc] at hlink
    obtain ⟨hin, -, hck⟩ := classify_linkFields (payloadOf B) (afterPulses 8 (bs.flatMap byteSamples ++ rest) s)
    rw [List.length_cons, run_succ _ _ _ (step_presented s B _ (hmsb B (by simp)) hlink),
      ih _ rest (fun B' hB' => hmsb B' (by simp [hB'])) hck hin, ← classify_afterPulses, afterPulses_afterPulses,
      classifyAll_cons, Nat.mul_add_one, Nat.add_comm 8]

theorem msb_of_mem_ccFrame (c : Chan) (d : Payload) (B : Byte) (h : B ∈ ccFrame c d) : B.msb = true := by
  simp only [ccFrame, List.mem_cons, List.not_mem_nil, or_false] at h
  rcases h with rfl | rfl
  · exact msb_ccCommand c
  · exact msb_wireOf d

/-- Every byte of a configuration sequence is a wire byte (R78). -/
theorem msb_of_mem_encode_config (c : Chan) (n : Nibble) (gs : List Payload) (vel : Payload) (B : Byte)
    (h : B ∈ encode (.config c n gs vel)) : B.msb = true := by
  rw [encode_config, List.mem_append, List.mem_flatMap] at h
  rcases h with h | ⟨d, -, h⟩
  · simp only [List.mem_cons, List.not_mem_nil, or_false] at h
    rcases h with rfl | rfl
    · exact msb_pcCommand c
    · rfl
  · exact msb_of_mem_ccFrame c d B h

/-- Settles O15: the run is `classifyAll` of the sequence's bytes, which is what `exec` of the row is, but for the pulses. -/
theorem configRunsAsItsBytes : Obligations.ConfigRunsAsItsBytes := by
  intro c n gs vel s rest hw hclock hlink
  have hlen : (encode (.config c n gs vel)).length = 6 + 2 * gs.length := Laws.EncodedLength.config c n gs vel
  refine ⟨classifyAll (encode (.config c n gs vel)) s, rfl, ?_⟩
  rw [← hlen, presentedBytesRunInOrder _ s rest (msb_of_mem_encode_config c n gs vel) hclock hlink,
    classifyAll_afterPulses]

/-! ## What framing depends on (R136) -/

/-- Two states in which the Classifier and the remote are at the same point. -/
def SameFraming (s u : State) : Prop := s.fcState = u.fcState ∧ s.linkIn = u.linkIn ∧ s.pulses = u.pulses

theorem SameFraming.afterPulses {s u : State} (h : SameFraming s u) (n : Nat) (rest : List Bool) :
    SameFraming (afterPulses n rest s) (afterPulses n rest u) :=
  ⟨h.1, rfl, congrArg (· + n) h.2.2⟩

theorem SameFraming.classify {s u : State} (h : SameFraming s u) (p : Payload) :
    SameFraming (classify p s) (classify p u) := by
  obtain ⟨hfc, hin, hpulses⟩ := h
  obtain ⟨hs1, hs2, -⟩ := classify_linkFields p s
  obtain ⟨hu1, hu2, -⟩ := classify_linkFields p u
  exact ⟨by rw [classify_fcState, classify_fcState, hfc], by rw [hs1, hu1, hin], by rw [hs2, hu2, hpulses]⟩

/-- The two polls return the same, and the byte's effect on `fc.state` depends on `fc.state` only. -/
theorem SameFraming.step {s u : State} (h : SameFraming s u) :
    ∃ s' u', step s = .next s' ∧ step u = .next u' ∧ SameFraming s' u' := by
  have hpoll := poll_congr s u h.2.1 h.2.2
  rcases hs : poll s with ⟨_ | B, s1⟩ <;> rcases hu : poll u with ⟨_ | B', u1⟩ <;> rw [hs, hu] at hpoll
  · refine ⟨s1, u1, step_of_poll_none s s1 hs, step_of_poll_none u u1 hu, ?_⟩
    rw [poll_none_state s s1 hs, poll_none_state u u1 hu, h.2.1]
    exact h.afterPulses 1 _
  · cases hpoll
  · cases hpoll
  · cases hpoll
    refine ⟨_, _, step_of_poll_some s s1 B hs, step_of_poll_some u u1 B hu, ?_⟩
    rw [poll_some_state s s1 B hs, poll_some_state u u1 B hu, h.2.1]
    exact (h.afterPulses 8 _).classify (payloadOf B)

theorem SameFraming.run (k : Nat) {s u : State} (h : SameFraming s u) :
    ∃ s' u', core.run k s = .next s' ∧ core.run k u = .next u' ∧ SameFraming s' u' := by
  induction k generalizing s u with
  | zero => exact ⟨s, u, rfl, rfl, h⟩
  | succ k ih =>
    obtain ⟨s1, u1, hs, hu, h1⟩ := h.step
    rw [run_succ k s s1 hs, run_succ k u u1 hu]
    exact ih h1

/-- Settles O58, by induction on the number of steps. -/
theorem framingDependsOnlyOnTheBytes : Obligations.FramingDependsOnlyOnTheBytes :=
  fun k _ _ hfc hin hpulses => SameFraming.run k ⟨hfc, hin, hpulses⟩

end Sys2Proof.Machine
end

section
/-! SUPPORT. A completed frame runs the row R79 selects, and `ready` brings a state to where it does (R79, R131 to R133). -/

namespace Sys2Proof.Machine

/-- A frame-level row is the completion of its frame. -/
theorem exec_frameLevel (i : Instr) (hf : i.isFrameLevel = true) : ∃ op, ∀ s, exec i s = .next (completeFrame op s) := by
  cases i with
  | noteOn | noteOff | ccSingle | ccScaled | cfgModeCh | cfgCc | cfgVel | pc | cfgEnter => exact ⟨_, fun _ => rfl⟩
  | _ => simp [Instr.isFrameLevel] at hf

/-- Settles O26: each of the rows is a completed frame, and while stopped completion is all that is left of it. -/
theorem stoppedFramesAreDropped : Obligations.StoppedFramesAreDropped := by
  rintro i s (hf | ⟨d, rfl⟩) hs
  · obtain ⟨op, hop⟩ := exec_frameLevel i hf
    rw [hop, completeFrame_stopped op s hs]
    rfl
  · exact congrArg _ (completeData_stopped d s hs)

/-- The row R79 selects from the addressed channel's state completes as `Dispatch` does: it follows the same table. -/
theorem exec_selectFrame (c : Chan) (k : Kind) (d : Payload) (s : State) :
    exec (selectFrame (s.chan c).configState (s.chan c).ccMode c k d) s = .next (completeFrame (dispatch c k d) s) := by
  cases k with
  | note =>
    by_cases h : d = 0#7 <;>
      simp only [selectFrame, exec, execNoteOff, execNoteOn, completeFrame, dispatch, h, if_true, if_false]
  | programChange =>
    by_cases h : d = Config.cfgSentinel <;>
      simp only [selectFrame, exec, execCfgEnter, execPc, completeFrame, dispatch, h, if_true, if_false]
  | controlChange =>
    cases hcfg : (s.chan c).configState with
    | idle =>
      cases hmode : (s.chan c).ccMode <;>
        simp only [selectFrame, exec, execCcSingle, execCcScaled, completeFrame, dispatch, setFcState_chan, hcfg, hmode]
    | _ =>
      simp only [selectFrame, exec, execCfgModeCh, execCfgCc, execCfgVel, completeFrame, dispatch, setFcState_chan, hcfg]

/-- The data byte of a pending command runs the row R79 selects from the latch, the data value and the addressed
channel. -/
theorem exec_dataComplete (d : Payload) (s : State) : exec (.dataComplete d) s =
    exec (selectFrame (s.chan s.fcChan).configState (s.chan s.fcChan).ccMode s.fcChan s.fcKind d) s :=
  (exec_selectFrame s.fcChan s.fcKind d s).symm

/-- Settles O27: each clause fixes the entry of R79's table that `exec_dataComplete` looks up. -/
theorem dataByteRunsTheSelectedFrame : Obligations.DataByteRunsTheSelectedFrame := by
  intro s d
  have h := exec_dataComplete d s
  refine ⟨?_, ?_, ?_, ?_, ?_, ?_, ?_, ?_, ?_, exec_answers_next _ s⟩
  · exact fun hk hd => h.trans (congrArg (exec · s) (hk ▸ if_neg hd))
  · exact fun hk hd => h.trans (congrArg (exec · s) (hk ▸ if_pos hd))
  · exact fun hk hd => h.trans (congrArg (exec · s) (hk ▸ if_pos hd))
  · exact fun hk hd => h.trans (congrArg (exec · s) (hk ▸ if_neg hd))
  · exact fun hk hcfg => h.trans (by rw [hk, hcfg]; rfl)
  · exact fun hk hcfg => h.trans (by rw [hk, hcfg]; rfl)
  · exact fun hk hcfg => h.trans (by rw [hk, hcfg]; rfl)
  · exact fun hk hcfg hmode => h.trans (by rw [hk, hcfg, hmode]; rfl)
  · exact fun hk hcfg hmode => h.trans (by rw [hk, hcfg, hmode]; rfl)

/-! ## Ready states (log entry 15) -/

/-- The next step of a state with a byte presented runs what the byte reads as. -/
theorem step_present (B : Byte) (s : State) :
    step (present [B] s) = exec (decodeByte s.fcState B) (poll (present [B] s)).2 :=
  step_presented_exec _ B s.linkIn (by simp)

theorem poll_present (B : Byte) (s : State) (h : B.msb = true) :
    poll (present [B] s) = (some B, afterPulses 8 s.linkIn (present [B] s)) :=
  poll_presented _ B s.linkIn h (by simp)

theorem ready_byteLevel (i : Instr) (s : State) (hb : i.isByteLevel = true) :
    ∃ t, ready i s = present (encode i) t ∧ i.selectedIn ⟨t.fcState, .idle, .single⟩ = true := by
  cases i with
  | pollNone | dataOrphan | dataComplete | cmdNote | cmdCc | cmdPc | rsvd | start | stop | tick => exact ⟨_, rfl, rfl⟩
  | _ => simp [Instr.isByteLevel] at hb

theorem step_ready_byteLevel (i : Instr) (s : State) (hw : i.wf = true) (hb : i.isByteLevel = true) :
    step (ready i s) = exec i (poll (ready i s)).2 := by
  obtain ⟨B, he, hdec⟩ := byteRow_decode i hb hw
  obtain ⟨t, hready, hsel⟩ := ready_byteLevel i s hb
  rw [hready, he, step_present, hdec _ hsel]

/-- `ready` makes a frame pending for a channel whose state selects the row. -/
theorem ready_frameRow {k : Kind} {c : Chan} {d : Payload} {i : Instr} (h : FrameRow k c d i) (s : State) :
    ∃ t : State, ready i s = pendingFrame c k d t ∧
      i.selectedIn ⟨.awaitingData, (t.chan c).configState, (t.chan c).ccMode⟩ = true := by
  cases h with
  | ccSingle | ccScaled | cfgModeCh | cfgCc | cfgVel =>
    exact ⟨_, rfl, by simp only [Instr.selectedIn, chan_setChan_same]; rfl⟩
  | noteOn | noteOff | pc | cfgEnter => exact ⟨s, rfl, rfl⟩

/-- With a frame pending for a channel whose state selects the row, the next step runs the row. -/
theorem step_pendingFrame {k : Kind} {c : Chan} {d : Payload} {i : Instr} (h : FrameRow k c d i) (t : State)
    (hsel : i.selectedIn ⟨.awaitingData, (t.chan c).configState, (t.chan c).ccMode⟩ = true) :
    step (pendingFrame c k d t) = exec i (poll (pendingFrame c k d t)).2 := by
  rw [pendingFrame, step_present, latchCommand_fcState, decodeByte_data _ d h.isDataValue, exec_dataComplete,
    poll_present _ _ (msb_wireOf d)]
  exact congrArg (exec · _) (h.selectFrame_eq _ hsel)

/-- Settles O16: a byte-level row is what its presented byte reads as; a frame-level row is what the data byte of its
pending frame selects. -/
theorem readyRowRunsNext : Obligations.ReadyRowRunsNext := by
  rintro i s hw (hb | hf)
  · exact step_ready_byteLevel i s hw hb
  · obtain ⟨k, c, d, hrow⟩ := exists_frameRow i hf hw
    obtain ⟨t, hready, hsel⟩ := ready_frameRow hrow s
    rw [hready, step_pendingFrame hrow t hsel]

theorem length_tableBytes (n w : Nat) : (tableBytes n w).length = n := by
  induction n with
  | zero => rfl
  | succ n ih => rw [tableBytes, List.length_cons, ih]

/-- A table word's instruction is what the decoder reads from its bytes in the context after reset. -/
theorem decode_of_decodeTableWord {nbits w : Nat} {i : Instr} (h : decodeTableWord nbits w = some i) :
    decode DecodeCtx.reset (tableBytes ((nbits + 7) / 8) w) = .ok i := by
  unfold decodeTableWord at h
  split at h
  · rename_i j hj
    rw [hj, Option.some.inj h]
  · cases h

theorem withFetchWord_of_decodeTableWord {nbits w : Nat} {i : Instr} (s : State) (h : decodeTableWord nbits w = some i) :
    s.withFetchWord nbits w = ready i s := by
  rw [State.withFetchWord, placeWord, h]

/-- Settles O17: a word of at most 16 bits has at most two bytes, so the row read from it is one `ready` serves. -/
theorem tableWordRunsNext : Obligations.TableWordRunsNext := by
  intro s nbits w i hbits hdec hm
  have hlen : (tableBytes ((nbits + 7) / 8) w).length ≤ 2 := by
    rw [length_tableBytes]
    omega
  obtain ⟨hw, hlevel⟩ := decode_short_inbound _ _ i (decode_of_decodeTableWord hdec) hm hlen
  rw [withFetchWord_of_decodeTableWord s hdec]
  exact readyRowRunsNext i s hw hlevel

end Sys2Proof.Machine
end


section
/-! SUPPORT. What a received payload does to the Classifier (R121, R122, R134). -/

namespace Sys2Proof

/-- The fields of a channel command's payload as numbers (R72, R73). -/
theorem channelCommand_fields (p : Payload) (hlo : 0x70#7 ≤ p) (hhi : p < 0x7C#7) :
    (chanField p).val = p.toNat % 4 ∧
    kindOf (kindField p) = some (if p < 0x74#7 then .note else if p < 0x78#7 then .controlChange else .programChange) := by
  revert p; decide

/-- The transport group has four payloads (R74). -/
theorem transport_cases (p : Payload) (h : 0x7C#7 ≤ p) : (p = 0x7D#7 ∨ p = 0x7E#7) ∨ p = 0x7C#7 ∨ p = 0x7F#7 := by
  revert p; decide

theorem isCommand_of_le (p : Payload) (h : 0x70#7 ≤ p) : isCommand p = true := decide_eq_true h

end Sys2Proof

namespace Sys2Proof.Machine

theorem completeData_classifier (d : Payload) (s : State) : (completeData d s).fcState = .awaitingCommand ∧
    (completeData d s).fcChan = s.fcChan ∧ (completeData d s).fcKind = s.fcKind := by
  cases hs : s.started with
  | false => rw [completeData_stopped d s hs]; exact ⟨rfl, rfl, rfl⟩
  | true => rw [completeData_started d s hs]; exact ⟨rfl, rfl, rfl⟩

section
variable (preempts : Bool) (order : List Chan) (p : Payload) (s : State)

/-- A data byte leaves no frame pending and keeps the latch (R130, R131). -/
theorem classifyWith_data_classifier (hp : isCommand p = false) :
    (classifyWith preempts order p s).fcState = .awaitingCommand ∧
    (classifyWith preempts order p s).fcChan = s.fcChan ∧ (classifyWith preempts order p s).fcKind = s.fcKind := by
  cases hf : s.fcState with
  | awaitingCommand => rw [classifyWith_orphan _ _ p s hp hf]; exact ⟨hf, rfl, rfl⟩
  | awaitingData => rw [classifyWith_data _ _ p s hp hf]; exact completeData_classifier p s

/-- START and STOP leave no frame pending and keep the latch (R123, R124). -/
theorem classifyWith_transport_classifier (hn : order.Nodup) (hm : ∀ c, c ∈ order) (hp : p = 0x7D#7 ∨ p = 0x7E#7) :
    (classifyWith preempts order p s).fcState = .awaitingCommand ∧
    (classifyWith preempts order p s).fcChan = s.fcChan ∧ (classifyWith preempts order p s).fcKind = s.fcKind := by
  rcases hp with rfl | rfl
  · obtain ⟨-, -, -, hfc, hchan, hkind, -⟩ := doStart_spec (setFcState .awaitingCommand s)
    exact ⟨hfc, hchan, hkind⟩
  · obtain ⟨-, -, -, hfc, hchan, hkind, -⟩ := doStop_spec order hn hm (setFcState .awaitingCommand s)
    exact ⟨hfc, hchan, hkind⟩

/-- A reserved byte ends a pending frame if it preempts, and keeps the latch (R125, R126). -/
theorem classifyWith_reserved_classifier (hp : p = 0x7C#7 ∨ p = 0x7F#7) :
    (classifyWith preempts order p s).fcState = (if preempts then .awaitingCommand else s.fcState) ∧
    (classifyWith preempts order p s).fcChan = s.fcChan ∧ (classifyWith preempts order p s).fcKind = s.fcKind := by
  rw [classifyWith_reserved preempts order p s hp.symm, reservedByte_eq]
  exact ⟨rfl, rfl, rfl⟩

/-- A channel command byte latches its channel and kind (R127 to R129). -/
theorem classifyWith_channelCommand (hlo : 0x70#7 ≤ p) (hhi : p < 0x7C#7) :
    classifyWith preempts order p s = latchCommand (chanField p)
      (if p < 0x74#7 then .note else if p < 0x78#7 then .controlChange else .programChange) s :=
  classifyWith_command preempts order p s _ (isCommand_of_le p hlo) hhi (channelCommand_fields p hlo hhi).2

end

/-- Settles O21: one clause per class of payload; the last clause collects the classes that keep the latch. -/
theorem classifierTransitionTable : Obligations.ClassifierTransitionTable := by
  intro preempts order p s horder
  have hn : order.Nodup := horder.nodup_iff.mpr nodup_channels
  have hm (c : Chan) : c ∈ order := horder.mem_iff.mpr (mem_channels c)
  have hdata (hp : p < 0x70#7) := classifyWith_data_classifier preempts order p s (isCommand_eq_false_of_lt p hp)
  have htransport := classifyWith_transport_classifier preempts order p s hn hm
  have hreserved := classifyWith_reserved_classifier preempts order p s
  refine ⟨fun hp => (hdata hp).1, fun hlo hhi => ?_, fun hp => (htransport hp).1, fun hp => (hreserved hp).1, ?_⟩
  · rw [classifyWith_channelCommand preempts order p s hlo hhi]
    exact ⟨rfl, (channelCommand_fields p hlo hhi).1, rfl⟩
  · rintro (hp | hp)
    · exact (hdata hp).2
    · exact (transport_cases p hp).elim (fun h => (htransport h).2) (fun h => (hreserved h).2)

/-- Settles O25: the classes of command bytes write `fc.state` without reading it; a reserved byte does so if it preempts. -/
theorem commandBytePreemptsPendingCommand : Obligations.CommandBytePreemptsPendingCommand := by
  intro preempts order p s hlo hpreempts _
  by_cases hhi : p < 0x7C#7
  · rw [classifyWith_channelCommand _ _ _ _ hlo hhi, classifyWith_channelCommand _ _ _ _ hlo hhi]
    rfl
  · rcases transport_cases p (BitVec.not_lt.mp hhi) with (rfl | rfl) | hp
    · rfl
    · rfl
    · rw [hpreempts hp, classifyWith_reserved _ _ p _ hp.symm, classifyWith_reserved _ _ p _ hp.symm]
      rfl

end Sys2Proof.Machine
end

section
/-! SUPPORT. START and STOP (R63, R123, R124). -/

namespace Sys2Proof.Machine

/-- Settles O28: START is `doStart` after the Classifier's state is reset. -/
theorem startAbandonsEverySequence : Obligations.StartAbandonsEverySequence := by
  intro s
  obtain ⟨hchan, hout, hstarted, hfc, hfields⟩ := doStart_spec (setFcState .awaitingCommand s)
  exact ⟨_, rfl, hstarted, hfc, hout, hchan, hfields⟩

theorem sweepOrder_perm_channels : sweepOrder.Perm Config.channels :=
  (List.perm_ext_iff_of_nodup nodup_sweepOrder nodup_channels).mpr
    fun c => ⟨fun _ => mem_channels c, fun _ => mem_sweepOrder c⟩

/-- What the row STOP does, with the sweep in the hardware's order (R124). -/
theorem exec_stop_spec (s : State) : ∃ t, exec .stop s = .next t ∧ t.started = false ∧ t.fcState = .awaitingCommand ∧
    t.midiOut = s.midiOut ++ sweepOrder.flatMap (fun c => (s.chan c).noteOffBytes) ∧ (∀ c, t.chan c = (s.chan c).quiet) ∧
    t.fcChan = s.fcChan ∧ t.fcKind = s.fcKind ∧ t.linkClock = s.linkClock ∧ t.pulses = s.pulses ∧ t.linkIn = s.linkIn := by
  obtain ⟨hchan, hout, hstarted, hfc, hfields⟩ :=
    doStop_spec sweepOrder nodup_sweepOrder mem_sweepOrder (setFcState .awaitingCommand s)
  exact ⟨_, rfl, hstarted, hfc, hout, hchan, hfields⟩

/-- Settles O29: the order is `STOP_SWEEP_ORDER`'s, a permutation of the four channels. -/
theorem stopSilencesEveryChannel : Obligations.StopSilencesEveryChannel :=
  ⟨sweepOrder, sweepOrder_perm_channels, exec_stop_spec⟩

/-- A silenced channel has no Note Off to send. -/
theorem flatMap_noteOffBytes_quiet (order : List Chan) (r : Chan → Channel) :
    order.flatMap (fun c => (r c).quiet.noteOffBytes) = [] :=
  List.flatMap_eq_nil_iff.mpr fun _ _ => rfl

/-- Settles O30: what the first START or STOP wrote is what the second writes, and the second STOP finds every channel
silent. -/
theorem startAndStopAreIdempotent : Obligations.StartAndStopAreIdempotent := by
  refine fun s t => ⟨fun h => ?start, fun h => ?stop⟩
  case start =>
    obtain ⟨t', h1, hst, hfc, hout, hchan, hfields⟩ := startAbandonsEverySequence s
    obtain ⟨u, h2, hst2, hfc2, hout2, hchan2, hc2, hk2, hl2, hp2, hi2⟩ := startAbandonsEverySequence t
    cases h.symm.trans h1
    rw [h2]
    refine congrArg _ (State.ext_chan u t (fun c => ?_) (hst2.trans hst.symm) (hfc2.trans hfc.symm) hc2 hk2 hout2 hl2 hp2 hi2)
    rw [hchan2, hchan]
  case stop =>
    obtain ⟨t', h1, hst, hfc, hout, hchan, hfields⟩ := exec_stop_spec s
    obtain ⟨u, h2, hst2, hfc2, hout2, hchan2, hc2, hk2, hl2, hp2, hi2⟩ := exec_stop_spec t
    cases h.symm.trans h1
    rw [h2]
    refine congrArg _ (State.ext_chan u t (fun c => ?_) (hst2.trans hst.symm) (hfc2.trans hfc.symm) hc2 hk2 ?_ hl2 hp2 hi2)
    · rw [hchan2, hchan]
      rfl
    · simp only [hout2, hchan, flatMap_noteOffBytes_quiet, List.append_nil]

/-- Settles O31: STOP quiets every channel, and by idempotence a further STOP changes nothing. -/
theorem nothingSoundsAfterStop : Obligations.NothingSoundsAfterStop := by
  intro s t u hst htu
  obtain ⟨t', h1, -, -, -, hchan, -⟩ := exec_stop_spec s
  cases hst.symm.trans h1
  have hut : exec .stop t = .next t := (startAndStopAreIdempotent s t).2 hst
  cases hut.symm.trans htu
  exact ⟨fun c => by rw [hchan]; exact ⟨rfl, rfl⟩, rfl⟩

end Sys2Proof.Machine
end


section
/-! SUPPORT. The frames of the Configuration Engine and the Translator while started (R151, R153, R154, R185 to R189). -/

namespace Sys2Proof.Machine

/-- CFG.ENTER while started: its frame emits nothing and awaits the mode/channel byte (R151). -/
theorem exec_cfgEnter_started (c : Chan) (s : State) (hs : s.started = true) :
    exec (.cfgEnter c) s = .next (afterFrame s c [] { s.chan c with configState := .awaitMC }) :=
  congrArg _ (completeFrame_afterFrame _ s c _ _ hs (cfgEnter_eq c _))

/-- Settles O32: the row is a Program Change frame with the sentinel, and its record is the one its operation writes. -/
theorem sentinelEntersConfiguration : Obligations.SentinelEntersConfiguration := by
  refine fun c s hs => ⟨?_, exec_cfgEnter_started c s hs⟩
  rw [encode, pcCommand, commandByte_eq_add]
  rfl

/-- CFG.MODECH while started: its frame emits the forced Note Off and leaves the record of R153. -/
theorem exec_cfgModeCh_started (c : Chan) (m : Count) (n : Nibble) (s : State) (hs : s.started = true) :
    exec (.cfgModeCh c m n) s = .next (afterFrame s c (modeChBytes n (s.chan c))
      (modeChRecord m n (modeChBase n (s.chan c)))) :=
  congrArg _ (completeFrame_afterFrame _ s c _ _ hs (cfgModeCh_eq c m n _))

/-- Settles O33: the record is `modeChRecord`'s, and the three clauses on the count are the branches of its mode and
state. -/
theorem modeChannelByteRewritesSettings : Obligations.ModeChannelByteRewritesSettings := by
  intro c m n s hs
  refine ⟨_, exec_cfgModeCh_started c m n s hs, modeChRecord_midiChannel .., modeChRecord_slot m n _,
    modeChRecord_remaining .., by simp, by simp, fun hm => ?_, fun hm => ?_, fun hm => ?_⟩
  · simp [modeChRecord_ccMode, modeChRecord_configState, hm]
  · simp [modeChRecord_ccMode, modeChRecord_configState, hm]
  · have h0 : m ≠ 0#3 := by rintro rfl; exact absurd hm (by decide)
    have h1 : m ≠ 1#3 := by rintro rfl; exact absurd hm (by decide)
    simp [modeChRecord_ccMode, modeChRecord_configState, h0, h1]

/-- Settles O35: the record is `cfgCcRecord`'s, with the free value `Config.countBelowZero` for the new count. -/
theorem ccNumberByteAtCountZeroStillRuns : Obligations.CcNumberByteAtCountZeroStillRuns := by
  intro c g s hs _
  exact ⟨decrement (s.chan c).remaining, cfgCcRecord g (s.chan c), exec_cfgCc_started c g s hs, cfgCcRecord_slot g _,
    cfgCcRecord_remaining .., cfgCcRecord_configState .., cfgCcRecord_midiChannel .., cfgCcRecord_ccMode ..,
    cfgCcRecord_velocity .., cfgCcRecord_currentNote ..⟩

/-- NOTE.ON while started: the Note Off of the sounding note, then the Note On; the note recorded, the sequence abandoned
(R156, R185). -/
theorem exec_noteOn_started (c : Chan) (d : Payload) (s : State) (hs : s.started = true) :
    exec (.noteOn c d) s = .next (afterFrame s c ((s.chan c).noteOffBytes ++
        [statusByte Config.stNoteOn (s.chan c).midiChannel, midiData d, scale111 (s.chan c).velocity])
      { s.chan c with currentNote := d, configState := .idle }) := by
  refine congrArg _ (completeFrame_afterFrame _ s c _ _ hs ?_)
  rw [abandon_eq, noteOn_eq, channelAct_channelAct, channelAct_chan_same]
  rfl

/-- NOTE.OFF while started: the Note Off of the sounding note; the channel silenced, the sequence abandoned (R156, R186). -/
theorem exec_noteOff_started (c : Chan) (s : State) (hs : s.started = true) :
    exec (.noteOff c) s = .next (afterFrame s c (s.chan c).noteOffBytes
      { s.chan c with currentNote := 0#7, configState := .idle }) := by
  refine congrArg _ (completeFrame_afterFrame _ s c _ _ hs ?_)
  rw [abandon_eq, noteOff_eq, channelAct_channelAct, channelAct_chan_same]
  rfl

/-- PC while started: the Program Change message; the sequence abandoned (R157, R189). -/
theorem exec_pc_started (c : Chan) (p : Payload) (s : State) (hs : s.started = true) :
    exec (.pc c p) s = .next (afterFrame s c [statusByte Config.stPc (s.chan c).midiChannel, midiData p]
      { s.chan c with configState := .idle }) := by
  refine congrArg _ (completeFrame_afterFrame _ s c _ _ hs ?_)
  rw [abandon_eq, progChange_eq, channelAct_channelAct, channelAct_chan_same]
  rfl

/-- Settles O46: the third byte is `scale111` of the stored velocity. -/
theorem noteOnSoundsTheNote : Obligations.NoteOnSoundsTheNote :=
  fun c d s _ hs => ⟨scale111 (s.chan c).velocity, scale111_toNat _, exec_noteOn_started c d s hs⟩

/-- Settles O47: the row is its frame's `stopNote` after the abandonment. -/
theorem noteOffStopsTheNote : Obligations.NoteOffStopsTheNote := exec_noteOff_started

/-- Settles O48: the message is `ccBytes` of slot 0, with the value `scale111` gives. -/
theorem singleModeControlChange : Obligations.SingleModeControlChange := by
  intro c d s hd hs
  refine ⟨scale111 d, scale111_toNat d ((isDataValue_iff d).mp hd), (exec_ccSingle_started c d s hs).trans ?_⟩
  cases (s.chan c).slot 0 <;> rfl

/-- Settles O49: a selector below 7 resolves to its slot and selector 7 to none; the value is `scale15`'s. -/
theorem scaledModeControlChange : Obligations.ScaledModeControlChange := by
  intro c sel x s hs
  refine ⟨scale15 x, scale15_toNat x, (exec_ccScaled_started c sel x s hs).trans ?_⟩
  by_cases h : sel.toNat < 7
  · rw [dif_pos h, resolveSlot_eq_slot _ sel ⟨sel.toNat, h⟩ rfl]
    cases (s.chan c).slot ⟨sel.toNat, h⟩ <;> rfl
  · rw [dif_neg h, resolveSlot, slotOf, dif_neg h]
    rfl

/-- Settles O51: the row is its frame's two-byte message after the abandonment. -/
theorem programChangeEmitsItsNumber : Obligations.ProgramChangeEmitsItsNumber :=
  fun c p s _ hs => exec_pc_started c p s hs

/-- A frame overwrites its channel's record. -/
theorem afterFrame_setChan (s : State) (c : Chan) (bs : List Byte) (r r' : Channel) :
    afterFrame (s.setChan c r') c bs r = afterFrame s c bs r := by
  simp [afterFrame, State.setChan]

/-- What the abandoning rows have in common (R156, R157): their bytes and the record they leave are functions of the record
they find that ignore its configuration state, and the record ends Idle with its settings kept. -/
def Abandons (c : Chan) (i : Instr) : Prop :=
  ∃ (bs : Channel → List Byte) (record : Channel → Channel),
    (∀ r : Channel, bs { r with configState := .idle } = bs r ∧ record { r with configState := .idle } = record r) ∧
    (∀ r, (record r).configState = .idle ∧ r.sameSettings (record r)) ∧
    ∀ s : State, s.started = true → exec i s = .next (afterFrame s c (bs (s.chan c)) (record (s.chan c)))

theorem noteOn_abandons (c : Chan) (d : Payload) : Abandons c (.noteOn c d) :=
  ⟨fun r => r.noteOffBytes ++ [statusByte Config.stNoteOn r.midiChannel, midiData d, scale111 r.velocity],
    fun r => { r with currentNote := d, configState := .idle }, fun _ => ⟨rfl, rfl⟩, fun _ => ⟨rfl, rfl, rfl, rfl, rfl⟩,
    exec_noteOn_started c d⟩

theorem noteOff_abandons (c : Chan) : Abandons c (.noteOff c) :=
  ⟨Channel.noteOffBytes, fun r => { r with currentNote := 0#7, configState := .idle }, fun _ => ⟨rfl, rfl⟩,
    fun _ => ⟨rfl, rfl, rfl, rfl, rfl⟩, exec_noteOff_started c⟩

theorem pc_abandons (c : Chan) (p : Payload) : Abandons c (.pc c p) :=
  ⟨fun r => [statusByte Config.stPc r.midiChannel, midiData p], fun r => { r with configState := .idle },
    fun _ => ⟨rfl, rfl⟩, fun _ => ⟨rfl, rfl, rfl, rfl, rfl⟩, exec_pc_started c p⟩

/-- Settles O37: each of the three rows `Abandons`, and a frame's result does not depend on the record it overwrites. -/
theorem noteAndProgramChangeAbandonFirst : Obligations.NoteAndProgramChangeAbandonFirst := by
  intro c i s hs hi
  have habandons : Abandons c i := by
    rcases hi with ⟨d, rfl⟩ | rfl | ⟨p, rfl⟩
    · exact noteOn_abandons c d
    · exact noteOff_abandons c
    · exact pc_abandons c p
  obtain ⟨bs, record, hcfg, hleft, hexec⟩ := habandons
  obtain ⟨hbs, hrec⟩ := hcfg (s.chan c)
  obtain ⟨hidle, hsettings⟩ := hleft (s.chan c)
  refine ⟨?_, _, hexec s hs, ?_, ?_, fun c' hc' => ?_⟩
  · rw [hexec s hs, hexec (s.setChan c { s.chan c with configState := .idle }) hs, afterFrame_setChan, chan_setChan_same,
      hbs, hrec]
  · rw [afterFrame_eq_act, channelAct_chan_same, hidle]
  · rwa [afterFrame_eq_act, channelAct_chan_same]
  · rw [afterFrame_eq_act, channelAct_chan_ne _ _ _ _ _ hc', setFcState_chan]

end Sys2Proof.Machine
end

section
/-! SUPPORT. Outbound messages: the act of emitting one, and the step that emits it (R80 to R84, R183). -/

namespace Sys2Proof.Machine

/-- A status byte is the type's nibble above the MIDI channel (R80). -/
theorem statusByte_eq_append (n : Nibble) :
    statusByte Config.stNoteOn n = 0b1001#4 ++ n ∧ statusByte Config.stNoteOff n = 0b1000#4 ++ n ∧
    statusByte Config.stCc n = 0b1011#4 ++ n ∧ statusByte Config.stPc n = 0b1100#4 ++ n := by
  revert n; decide

/-- Settles O52: each row is its helper of R183, whose bytes are appended in order. -/
theorem messagesAreEmittedWhole : Obligations.MessagesAreEmittedWhole := by
  intro n k v s
  obtain ⟨hon, hoff, hcc, hpc⟩ := statusByte_eq_append n
  rw [← hon, ← hoff, ← hcc, ← hpc]
  exact ⟨congrArg _ (emitNoteOn_eq n k _ s), congrArg _ (emitNoteOff_eq n k s), congrArg _ (emitCc_eq n k _ s),
    congrArg _ (emitPc_eq n k s)⟩

/-- With a frame pending while started, the next step appends what the frame emits. -/
theorem step_pendingFrame_midiOut (c : Chan) (k : Kind) (d : Payload) (t : State) (hd : isDataValue d = true)
    (hs : t.started = true) :
    ∃ u, step (pendingFrame c k d t) = .next u ∧ u.midiOut = t.midiOut ++ frameBytes k d (t.chan c) := by
  refine ⟨completeData d (poll (pendingFrame c k d t)).2, ?_, ?_⟩
  · rw [pendingFrame, step_present, latchCommand_fcState, decodeByte_data _ d hd]
    rfl
  · rw [pendingFrame, poll_present _ _ (msb_wireOf d), completeData_started _ _ (by exact hs)]
    rfl

theorem step_pendingCc_midiOut (c : Chan) (cfg : ConfigState) (d : Payload) (t : State) (hd : isDataValue d = true)
    (hs : t.started = true) : ∃ u, step (pendingCc c cfg d t) = .next u ∧
      u.midiOut = t.midiOut ++ frameBytes .controlChange d { t.chan c with configState := cfg } := by
  simpa [pendingCc] using step_pendingFrame_midiOut c .controlChange d (t.setChan c { t.chan c with configState := cfg }) hd hs

/-- `unscale111` finds a data value that `scale111` takes to `v`, if there is one (R181). -/
theorem scale111_unscale111 (v : Payload) (h : ∃ u : Nat, u < 0x70 ∧ u * 0x7F / 0x6F = v.toNat) :
    isDataValue (unscale111 v) = true ∧ scale111 (unscale111 v) = midiData v := by
  unfold unscale111
  split
  · rename_i u hu
    have hlt : u < 0x70 := List.mem_range.mp (List.mem_of_find?_eq_some hu)
    have hval : u * 0x7F / 0x6F = v.toNat := by simpa [Config.scaleNum, Config.scale111Den] using List.find?_some hu
    have hnat : (BitVec.ofNat 7 u).toNat = u :=
      (BitVec.toNat_ofNat u 7).trans (Nat.mod_eq_of_lt (Nat.lt_trans hlt (by decide)))
    have hle : BitVec.ofNat 7 u ≤ 0x6F#7 := by
      rw [BitVec.le_def, hnat]
      exact Nat.le_of_lt_succ hlt
    refine ⟨(isDataValue_iff _).mpr hle, BitVec.eq_of_toNat_eq ?_⟩
    rw [scale111_toNat _ hle, hnat, hval, midiData, BitVec.toNat_append]
    simp
  · rename_i hnone
    obtain ⟨u, hlt, hval⟩ := h
    exact absurd (List.find?_eq_none.mp hnone u (List.mem_range.mpr hlt))
      (by simpa [Config.scaleNum, Config.scale111Den] using hval)

/-- Settles O53: each message row's ready state has the frame pending that emits it, on channel 0 with the record set up for
it. -/
theorem everyProducibleMessageIsEmittedByAStep : Obligations.EveryProducibleMessageIsEmittedByAStep := by
  intro m s hm hw hv
  cases m with
  | mNoteOn n k v =>
    obtain ⟨-, hscale⟩ := scale111_unscale111 v (hv n k v (.inl rfl))
    obtain ⟨hk, hk0⟩ := isDataValue_of_isNote k hw
    obtain ⟨t, ht, hout⟩ := step_pendingFrame_midiOut 0 .note k _ hk (setStarted_started true
      (s.setChan 0 { s.chan 0 with midiChannel := n, currentNote := 0#7, velocity := unscale111 v }))
    refine ⟨t, ht, hout.trans ?_⟩
    simp [frameBytes, hk0, hscale, Channel.noteOffBytes, encode]
  | mNoteOff n k =>
    obtain ⟨hk, hk0⟩ := isDataValue_of_isNote k hw
    obtain ⟨t, ht, hout⟩ := step_pendingFrame_midiOut 0 .note 0#7 _ rfl (setStarted_started true
      (s.setChan 0 { s.chan 0 with midiChannel := n, currentNote := k }))
    refine ⟨t, ht, hout.trans ?_⟩
    simp [frameBytes, hk0, Channel.noteOffBytes, encode, Config.stNoteOff, Config.noteOffVelocity]
  | mCc n g v =>
    obtain ⟨hd, hscale⟩ := scale111_unscale111 v (hv n g v (.inr rfl))
    obtain ⟨t, ht, hout⟩ := step_pendingCc_midiOut 0 .idle (unscale111 v) _ hd (setStarted_started true
      (s.setChan 0 (({ s.chan 0 with midiChannel := n, ccMode := .single } : Channel).setSlot 0 (some g))))
    refine ⟨t, ht, hout.trans ?_⟩
    simp [frameBytes, hscale, ccBytes, encode, Channel.slot, Channel.setSlot]
  | mPc n p =>
    obtain ⟨hp, hp0⟩ := isDataValue_of_isProgram p hw
    obtain ⟨t, ht, hout⟩ := step_pendingFrame_midiOut 0 .programChange p _ hp (setStarted_started true
      (s.setChan 0 { s.chan 0 with midiChannel := n }))
    refine ⟨t, ht, hout.trans ?_⟩
    simp [frameBytes, Config.cfgSentinel, hp0, encode]
  | _ => simp [Instr.isMessage] at hm

end Sys2Proof.Machine
end


section
/-! SUPPORT. A whole configuration sequence (R78, R165). -/

namespace Sys2Proof.Machine

theorem exec_config (c : Chan) (n : Nibble) (gs : List Payload) (vel : Payload) (s : State) :
    exec (.config c n gs vel) s = .next (classifyAll (encode (.config c n gs vel)) s) := rfl

/-- The record a sequence's mode/channel byte and CC numbers make of the record `r` (R153, R154, R165): the settings are the
operands', but for a count of 0, which keeps the mode. -/
structure ConfiguredFrom (n : Nibble) (gs : List Payload) (r r' : Channel) : Prop where
  midiChannel : r'.midiChannel = n
  slots : ∀ i : Slot, r'.slot i = if i.val < gs.length then gs[gs.length - 1 - i.val]? else none
  ccMode : r'.ccMode = if gs.length = 0 then r.ccMode else if gs.length = 1 then .single else .scaled
  currentNote : r'.currentNote = if n = r.midiChannel then r.currentNote else 0#7
  remaining : r'.remaining = 0#3

theorem ofNat_count_eq_iff (m k : Nat) (hm : m ≤ 6) (hk : k ≤ 6) : BitVec.ofNat 3 m = BitVec.ofNat 3 k ↔ m = k := by
  rw [← BitVec.toNat_inj, BitVec.toNat_ofNat, BitVec.toNat_ofNat, Nat.mod_eq_of_lt (by omega), Nat.mod_eq_of_lt (by omega)]

/-- The mode/channel byte's record with the CC numbers it counts received: the velocity is awaited. -/
theorem classifyAll_countedFrames (c : Chan) (n : Nibble) (gs : List Payload) (hlen : gs.length ≤ 6)
    (hw : ∀ g ∈ gs, isDataValue g = true) (bs : List Byte) (r : Channel) (s : State) (hs : s.started = true) :
    ∃ r', classifyAll (gs.flatMap (ccFrame c)) (channelAct c bs
          (modeChRecord (BitVec.ofNat 3 gs.length) n (modeChBase n r)) (ccPending c s)) =
        channelAct c bs r' (ccPending c s) ∧ r'.configState = .awaitVel ∧ ConfiguredFrom n gs r r' := by
  have hzero := ofNat_count_eq_iff gs.length 0 hlen (by decide)
  have hone := ofNat_count_eq_iff gs.length 1 hlen (by decide)
  by_cases h0 : gs = []
  · subst h0
    exact ⟨_, rfl, by simp [modeChRecord_configState], by simp, by simp, by simp [modeChRecord_ccMode], by simp, by simp⟩
  · have hne : gs.length ≠ 0 := by simpa using h0
    have hcount : BitVec.ofNat 3 gs.length ≠ 0#3 := fun h => hne (hzero.mp h)
    obtain ⟨r', he, hcfg, hrem, hmidi, hmode, -, hnote, hslots⟩ := classifyAll_ccFrames c gs hw bs
      (modeChRecord (BitVec.ofNat 3 gs.length) n (modeChBase n r)) s hs
      (by rw [modeChRecord_configState, if_neg hcount])
      (by rw [modeChRecord_remaining, BitVec.toNat_ofNat]; omega) h0
    refine ⟨r', he, hcfg, ?_, ?_, ?_, ?_, hrem⟩
    · rw [hmidi, modeChRecord_midiChannel]
    · simpa using hslots
    · simp [hmode, modeChRecord_ccMode, hcount, hne, hone]
    · rw [hnote, modeChRecord_currentNote, modeChBase_currentNote]

/-- A ControlChange frame after an act on its channel is one act with it. -/
theorem classifyAll_ccFrame_act (c : Chan) (d : Payload) (bs : List Byte) (r : Channel) (s t : State)
    (ht : ccPending c t = channelAct c bs r (ccPending c s)) (hs : t.started = true) (hd : isDataValue d = true) :
    classifyAll (ccFrame c d) t =
      channelAct c (bs ++ frameBytes .controlChange d r) (frameRecord .controlChange d r) (ccPending c s) := by
  have hr : t.chan c = r := (congrArg (State.chan · c) ht).trans (channelAct_chan_same ..)
  have hframe := classifyAll_frame .controlChange c d t hs hd
  rw [hr, show setFcState .awaitingCommand (latchCommand c .controlChange t) = _ from ht, channelAct_channelAct] at hframe
  exact hframe

/-- CFG.MODECH writes what the sentinel wrote again, so its record is that of the channel before the sentinel. -/
theorem frameRecord_awaitMC (d : Payload) (r : Channel) :
    frameRecord .controlChange d { r with configState := .awaitMC } =
      modeChRecord (highField d) (lowNibble d) (modeChBase (lowNibble d) r) := by
  simp only [frameRecord, modeChBase]
  split <;> (unfold modeChRecord; split <;> [skip; split] <;> rfl)

theorem frameBytes_awaitMC (d : Payload) (r : Channel) :
    frameBytes .controlChange d { r with configState := .awaitMC } = modeChBytes (lowNibble d) r := rfl

/-- The sentinel's frame and the mode/channel byte's: one act with the forced Note Off (R151, R153). -/
theorem classifyAll_sequenceHead (c : Chan) (n : Nibble) (m : Nat) (hm : m ≤ 6) (s : State) (hs : s.started = true) :
    classifyAll ([pcCommand c, 0xEF#8] ++ ccFrame c (modeChValue m n)) s = channelAct c (modeChBytes n (s.chan c))
      (modeChRecord (BitVec.ofNat 3 m) n (modeChBase n (s.chan c))) (ccPending c s) := by
  have hsentinel : classifyAll [pcCommand c, 0xEF#8] s = channelAct c [] { s.chan c with configState := .awaitMC }
      (setFcState .awaitingCommand (latchCommand c .programChange s)) :=
    classifyAll_frame .programChange c Config.cfgSentinel s hs rfl
  have hmode := classifyAll_ccFrame_act c (modeChValue m n) [] { s.chan c with configState := .awaitMC } s
    (classifyAll [pcCommand c, 0xEF#8] s) (by rw [hsentinel]; rfl) (by rw [hsentinel]; exact hs)
    (isDataValue_modeChValue m n hm)
  rw [classifyAll_append, hmode, List.nil_append, frameBytes_awaitMC, frameRecord_awaitMC, modeChValue,
    highField_joinFields, lowNibble_joinFields]

/-- The velocity's frame ends the sequence (R155). -/
theorem classifyAll_velFrame (c : Chan) (v : Payload) (bs : List Byte) (r : Channel) (s : State) (hs : s.started = true)
    (hv : isDataValue v = true) (hr : r.configState = .awaitVel) :
    classifyAll (ccFrame c v) (channelAct c bs r (ccPending c s)) =
      channelAct c bs { r with velocity := v, configState := .idle } (ccPending c s) := by
  rw [classifyAll_ccFrame_act c v bs r s (channelAct c bs r (ccPending c s)) rfl hs hv]
  simp only [frameBytes, frameRecord, hr, List.append_nil]

/-- A started machine's whole sequence is one act on its channel: the forced Note Off, then the configured record. -/
theorem exec_config_started (c : Chan) (n : Nibble) (gs : List Payload) (vel : Payload) (s : State)
    (hw : (Instr.config c n gs vel).wf = true) (hs : s.started = true) :
    ∃ r', exec (.config c n gs vel) s = .next (channelAct c (modeChBytes n (s.chan c)) r' (ccPending c s)) ∧
      r'.configState = .idle ∧ r'.velocity = vel ∧ ConfiguredFrom n gs (s.chan c) r' := by
  obtain ⟨hlen, hdata⟩ := config_dataValues c n gs vel hw
  obtain ⟨r3, hframes, hcfg, hconf⟩ := classifyAll_countedFrames c n gs hlen (fun g hg => hdata g (by simp [hg]))
    (modeChBytes n (s.chan c)) (s.chan c) s hs
  refine ⟨{ r3 with velocity := vel, configState := .idle }, ?_, rfl, rfl,
    ⟨hconf.midiChannel, hconf.slots, hconf.ccMode, hconf.currentNote, hconf.remaining⟩⟩
  rw [exec_config, encode, classifyAll_append, classifyAll_append, classifyAll_sequenceHead c n _ hlen s hs, hframes,
    classifyAll_velFrame c vel _ r3 s hs (hdata vel (by simp)) hcfg]

/-- Settles O38: the sequence is one act on its channel, and an act keeps everything it is not given. -/
theorem configSequenceDeterminesTheSettings : Obligations.ConfigSequenceDeterminesTheSettings := by
  intro c n gs vel s hw hs
  obtain ⟨r', hexec, hidle, hvel, hconf⟩ := exec_config_started c n gs vel s hw hs
  refine ⟨_, hexec, ?_⟩
  rw [channelAct_chan_same]
  exact ⟨hconf.midiChannel, hvel, hidle, hconf.slots, hconf.ccMode, hconf.currentNote, hconf.remaining, rfl,
    fun c' hc' => channelAct_chan_ne c c' _ _ _ hc', hs, rfl, rfl, rfl, rfl, rfl, rfl⟩

theorem Channel.ext_slots {r r' : Channel} (hmidi : r.midiChannel = r'.midiChannel) (hmode : r.ccMode = r'.ccMode)
    (hslots : ∀ i, r.slot i = r'.slot i) (hvel : r.velocity = r'.velocity) (hnote : r.currentNote = r'.currentNote)
    (hcfg : r.configState = r'.configState) (hrem : r.remaining = r'.remaining) : r = r' := by
  have hcc : r.cc = r'.cc := Vector.ext fun i hi => hslots ⟨i, hi⟩
  cases r
  cases r'
  simp_all

/-- Configuring a configured record the same way again gives it back, but for what the velocity byte writes. -/
theorem ConfiguredFrom.idempotent {n : Nibble} {gs : List Payload} {r r' r'' : Channel} (h : ConfiguredFrom n gs r r')
    (h' : ConfiguredFrom n gs r' r'') (hvel : r''.velocity = r'.velocity) (hcfg : r''.configState = r'.configState) :
    r'' = r' := by
  refine Channel.ext_slots (h'.midiChannel.trans h.midiChannel.symm) ?mode
    (fun i => (h'.slots i).trans (h.slots i).symm) hvel ?note hcfg (h'.remaining.trans h.remaining.symm)
  case mode =>
    rw [h'.ccMode, h.ccMode]
    split <;> rfl
  case note => rw [h'.currentNote, if_pos h.midiChannel.symm]

/-- Once a ControlChange command for the channel has completed, another changes nothing but by its frame's effect. -/
theorem ccPending_act (c : Chan) (bs : List Byte) (r : Channel) (s : State) :
    ccPending c (channelAct c bs r (ccPending c s)) = channelAct c bs r (ccPending c s) := rfl

/-- Settles O39: the second sequence finds its own MIDI channel, so it emits nothing, and the record it leaves is the one it
found. -/
theorem repeatedConfigSequenceChangesNothing : Obligations.RepeatedConfigSequenceChangesNothing := by
  intro c n gs vel s t u hw hs hst htu
  obtain ⟨r', hexec, hidle, hvel, hconf⟩ := exec_config_started c n gs vel s hw hs
  cases hst.symm.trans hexec
  obtain ⟨r'', hexec', hidle', hvel', hconf'⟩ := exec_config_started c n gs vel
    (channelAct c (modeChBytes n (s.chan c)) r' (ccPending c s)) hw hs
  cases htu.symm.trans hexec'
  rw [channelAct_chan_same] at hconf' ⊢
  rw [hconf.idempotent hconf' (hvel'.trans hvel.symm) (hidle'.trans hidle.symm), modeChBytes,
    if_pos hconf.midiChannel.symm, ccPending_act, channelAct_channelAct, List.append_nil]

/-! ## While stopped (R132) -/

theorem classifyAll_ccFrame_stopped (c : Chan) (d : Payload) (hd : isDataValue d = true) (s : State)
    (hs : s.started = false) : classifyAll (ccFrame c d) s = ccPending c s :=
  classifyAll_frame_stopped .controlChange c d s hs hd

/-- After one ControlChange frame for the channel, more of them while stopped change nothing. -/
theorem classifyAll_ccFrames_stopped (c : Chan) (ds : List Payload) (hd : ∀ d ∈ ds, isDataValue d = true) (s : State)
    (hs : s.started = false) : classifyAll (ds.flatMap (ccFrame c)) (ccPending c s) = ccPending c s := by
  induction ds with
  | nil => rfl
  | cons d ds ih =>
    rw [List.flatMap_cons, classifyAll_append, classifyAll_ccFrame_stopped c d (hd d (by simp)) (ccPending c s) hs]
    exact ih fun e he => hd e (by simp [he])

/-- Settles O40: every frame of the sequence is dropped, and the last command latched is the ControlChange's. -/
theorem configSequenceWhileStoppedIsLost : Obligations.ConfigSequenceWhileStoppedIsLost := by
  intro c n gs vel s hw hs
  obtain ⟨-, hdata⟩ := config_dataValues c n gs vel hw
  have hsentinel : classifyAll [pcCommand c, 0xEF#8] s = setFcState .awaitingCommand (latchCommand c .programChange s) :=
    classifyAll_frame_stopped .programChange c Config.cfgSentinel s hs rfl
  rw [exec_config, encode_config, classifyAll_append, hsentinel, List.flatMap_cons, classifyAll_append,
    classifyAll_ccFrame_stopped c _ (hdata _ (by simp)) (setFcState .awaitingCommand (latchCommand c .programChange s)) hs]
  exact congrArg _ (classifyAll_ccFrames_stopped c _ (fun d hd => hdata d (List.mem_cons_of_mem _ hd)) s hs)

end Sys2Proof.Machine
end


section
/-! SUPPORT. What a received payload does to the channels, `started` and the output: four kinds of event (R58, R66, R161). -/

namespace Sys2Proof.Machine

/-- The payload is the data byte of a pending command, while started: its frame is dispatched (R131 to R133). -/
def Dispatches (p : Payload) (s : State) : Prop := p < 0x70#7 ∧ s.fcState = .awaitingData ∧ s.started = true

theorem classify_of_dispatches (p : Payload) (s : State) (h : Dispatches p s) :
    classify p s = channelAct s.fcChan (frameBytes s.fcKind p (s.chan s.fcChan))
      (frameRecord s.fcKind p (s.chan s.fcChan)) (setFcState .awaitingCommand s) := by
  obtain ⟨hp, hf, hs⟩ := h
  rw [classify, classifyWith_data _ _ p s (isCommand_eq_false_of_lt p hp) hf, completeData_started p s hs]

theorem lt_of_not_command (p : Payload) (h : isCommand p = false) : p < 0x70#7 :=
  BitVec.not_le.mp (of_decide_eq_false h)

/-- A payload that is neither START nor STOP and dispatches no frame writes the Classifier's fields only. -/
theorem classify_of_not_dispatches (p : Payload) (s : State) (hstart : p ≠ 0x7D#7) (hstop : p ≠ 0x7E#7)
    (h : ¬ Dispatches p s) :
    (classify p s).started = s.started ∧ (classify p s).midiOut = s.midiOut ∧ ∀ c, (classify p s).chan c = s.chan c := by
  rcases classifyWith_cases Config.reservedPreempts sweepOrder p s with
    ⟨hp, -⟩ | ⟨hp, -⟩ | ⟨-, e⟩ | ⟨-, -, k, -, e⟩ | ⟨-, -, e⟩ | ⟨-, -, -, e⟩ | ⟨hdata, hf, hs, -⟩
  · exact absurd hp hstart
  · exact absurd hp hstop
  · rw [classify, e, reservedByte_eq]
    exact ⟨rfl, rfl, fun _ => rfl⟩
  · rw [classify, e]
    exact ⟨rfl, rfl, fun _ => rfl⟩
  · rw [classify, e]
    exact ⟨rfl, rfl, fun _ => rfl⟩
  · rw [classify, e]
    exact ⟨rfl, rfl, fun _ => rfl⟩
  · exact absurd ⟨lt_of_not_command p hdata, hf, hs⟩ h

/-- The four kinds of event: START, STOP, a dispatched frame, and anything else. -/
theorem classify_effect (p : Payload) (s : State) :
    (p = 0x7D#7 ∧ (classify p s).started = true ∧ (classify p s).midiOut = s.midiOut ∧
      ∀ c, (classify p s).chan c = { s.chan c with configState := .idle }) ∨
    (p = 0x7E#7 ∧ (classify p s).started = false ∧
      (classify p s).midiOut = s.midiOut ++ sweepOrder.flatMap (fun c => (s.chan c).noteOffBytes) ∧
      ∀ c, (classify p s).chan c = (s.chan c).quiet) ∨
    (Dispatches p s ∧ classify p s = channelAct s.fcChan (frameBytes s.fcKind p (s.chan s.fcChan))
      (frameRecord s.fcKind p (s.chan s.fcChan)) (setFcState .awaitingCommand s)) ∨
    (p ≠ 0x7D#7 ∧ p ≠ 0x7E#7 ∧ ¬ Dispatches p s ∧ (classify p s).started = s.started ∧
      (classify p s).midiOut = s.midiOut ∧ ∀ c, (classify p s).chan c = s.chan c) := by
  by_cases hstart : p = 0x7D#7
  · subst hstart
    obtain ⟨hchan, hout, hstarted, -⟩ := doStart_spec (setFcState .awaitingCommand s)
    exact .inl ⟨rfl, hstarted, hout, hchan⟩
  by_cases hstop : p = 0x7E#7
  · subst hstop
    obtain ⟨hchan, hout, hstarted, -⟩ :=
      doStop_spec sweepOrder nodup_sweepOrder mem_sweepOrder (setFcState .awaitingCommand s)
    exact .inr (.inl ⟨rfl, hstarted, hout, hchan⟩)
  by_cases h : Dispatches p s
  · exact .inr (.inr (.inl ⟨h, classify_of_dispatches p s h⟩))
  · exact .inr (.inr (.inr ⟨hstart, hstop, h, classify_of_not_dispatches p s hstart hstop h⟩))

/-! ## Who writes what -/

/-- Settles O56: an act on a channel keeps `started`, and a dispatched payload is below the transport codes. -/
theorem startedIsWrittenOnlyByStartAndStop : Obligations.StartedIsWrittenOnlyByStartAndStop := by
  intro p s
  rcases classify_effect p s with ⟨rfl, h, -⟩ | ⟨rfl, h, -⟩ | ⟨⟨hp, -⟩, h⟩ | ⟨hstart, hstop, -, h, -⟩
  · exact h
  · exact h
  · have hne := not_transport p (BitVec.lt_trans hp (by decide))
    rw [h, if_neg hne.1, if_neg hne.2.1]
    rfl
  · rw [h, if_neg hstart, if_neg hstop]

/-- Settles O42: the other kinds of event leave every record as it is, and a dispatched frame the records it is not
addressed to. -/
theorem channelIsTouchedOnlyByItsFramesStartStop : Obligations.ChannelIsTouchedOnlyByItsFramesStartStop := by
  intro p s c hne
  rcases classify_effect p s with ⟨hp, -⟩ | ⟨hp, -⟩ | ⟨⟨hp, hf, hs⟩, h⟩ | ⟨-, -, -, -, -, h⟩
  · exact .inl hp
  · exact .inr (.inl hp)
  · refine .inr (.inr ⟨hp, hf, hs, ?_⟩)
    by_contra hc
    exact hne (by rw [h, channelAct_chan_ne _ _ _ _ _ (Ne.symm hc), setFcState_chan])
  · exact absurd (h c) hne

/-- A frame keeps the settings unless it is a ControlChange on a channel in a configuration sequence (R26). -/
theorem frameRecord_sameSettings (k : Kind) (d : Payload) (r : Channel)
    (h : ¬ (k = .controlChange ∧ r.configState ≠ .idle)) : r.sameSettings (frameRecord k d r) := by
  cases k with
  | note => exact ⟨rfl, rfl, rfl, rfl⟩
  | programChange =>
    rw [frameRecord]
    split <;> exact ⟨rfl, rfl, rfl, rfl⟩
  | controlChange =>
    have hidle : r.configState = .idle := by simpa using h
    simp only [frameRecord, hidle]
    exact ⟨rfl, rfl, rfl, rfl⟩

/-- Settles O43: START and STOP write no setting, and a frame does only as `frameRecord_sameSettings` says. -/
theorem settingsAreWrittenOnlyByConfiguration : Obligations.SettingsAreWrittenOnlyByConfiguration := by
  intro p s c hne
  rcases classify_effect p s with ⟨-, -, -, h⟩ | ⟨-, -, -, h⟩ | ⟨⟨hp, hf, hs⟩, h⟩ | ⟨-, -, -, -, -, h⟩
  · exact absurd (by rw [h]; exact ⟨rfl, rfl, rfl, rfl⟩) hne
  · exact absurd (by rw [h]; exact ⟨rfl, rfl, rfl, rfl⟩) hne
  · rw [h, channelAct_chan] at hne
    split at hne
    · rename_i hc
      subst hc
      refine ⟨hp, hf, hs, rfl, ?_⟩
      by_contra hcfg
      exact hne (frameRecord_sameSettings _ p _ hcfg)
    · exact absurd ⟨rfl, rfl, rfl, rfl⟩ hne
  · exact absurd (by rw [h]; exact ⟨rfl, rfl, rfl, rfl⟩) hne

theorem decrement_eq_ofNat (r : Count) (h : r ≠ 0#3) : decrement r = BitVec.ofNat 3 (r.toNat - 1) := by
  rw [← decrement_toNat r h, Nat.add_sub_cancel, BitVec.ofNat_toNat, BitVec.setWidth_eq]

/-- The count after a ControlChange frame, with a countdown that has not ended (R153, R154, R164). -/
theorem frameRecord_controlChange_remaining (d : Payload) (r : Channel)
    (h : r.configState = .awaitCC → r.remaining ≠ 0#3) :
    (frameRecord .controlChange d r).remaining = match r.configState with
      | .awaitMC => highField d
      | .awaitCC => BitVec.ofNat 3 (r.remaining.toNat - 1)
      | .idle | .awaitVel => r.remaining := by
  cases hcfg : r.configState with
  | awaitCC => simp only [frameRecord, hcfg, cfgCcRecord_remaining, decrement_eq_ofNat _ (h hcfg)]
  | _ => simp only [frameRecord, hcfg, modeChRecord_remaining]

theorem frameRecord_remaining_of_ne (k : Kind) (d : Payload) (r : Channel) (h : k ≠ .controlChange) :
    (frameRecord k d r).remaining = r.remaining := by
  cases k with
  | note => rfl
  | programChange =>
    rw [frameRecord]
    split <;> rfl
  | controlChange => exact absurd rfl h

/-- Settles O41: only a ControlChange frame dispatched to the channel reaches its count. -/
theorem countIsOnlySetByModeChannelByte : Obligations.CountIsOnlySetByModeChannelByte := by
  intro p s c hcount
  rcases classify_effect p s with ⟨rfl, -, -, h⟩ | ⟨rfl, -, -, h⟩ | ⟨⟨hp, hf, hs⟩, h⟩ | ⟨-, -, hno, -, -, h⟩
  · rw [h, if_neg (fun hd => absurd hd.1 (by decide))]
  · rw [h, if_neg (fun hd => absurd hd.1 (by decide))]
    rfl
  · rw [h, channelAct_chan]
    by_cases hc : c = s.fcChan
    · subst hc
      by_cases hk : s.fcKind = .controlChange
      · rw [if_pos rfl, if_pos ⟨hp, hf, hs, rfl, hk⟩, hk, frameRecord_controlChange_remaining p _ hcount]
        rfl
      · rw [if_pos rfl, if_neg (fun hd => hk hd.2.2.2.2), frameRecord_remaining_of_ne _ p _ hk]
    · rw [if_neg hc, if_neg (fun hd => hc hd.2.2.2.1.symm)]
      rfl
  · rw [h, if_neg (fun hd => hno ⟨hd.1, hd.2.1, hd.2.2.1⟩)]

/-- Settles O57: a dispatched frame is one act whose bytes and record are functions of the addressed channel's record; any
other byte emits nothing and writes no record. -/
theorem channelsDoNotInteract : Obligations.ChannelsDoNotInteract := by
  intro p s u hstart hstop hstarted hfc hchan hkind hrec
  by_cases h : Dispatches p s
  · have hu : Dispatches p u := ⟨h.1, hfc ▸ h.2.1, hstarted ▸ h.2.2⟩
    rw [classify_of_dispatches p s h, classify_of_dispatches p u hu, ← hchan, ← hkind, ← hrec]
    exact ⟨⟨_, rfl, rfl⟩, by rw [channelAct_chan_same, channelAct_chan_same],
      fun c hc => channelAct_chan_ne _ _ _ _ _ hc⟩
  · have hu : ¬ Dispatches p u := fun hu => h ⟨hu.1, hfc ▸ hu.2.1, hstarted ▸ hu.2.2⟩
    obtain ⟨-, houts, hchans⟩ := classify_of_not_dispatches p s hstart hstop h
    obtain ⟨-, houtu, hchanu⟩ := classify_of_not_dispatches p u hstart hstop hu
    exact ⟨⟨[], by rw [houts, List.append_nil], by rw [houtu, List.append_nil]⟩, by rw [hchans, hchanu, hrec],
      fun c _ => hchans c⟩

/-! ## Output (R36, R58, R132) -/

theorem length_noteOffBytes_le (r : Channel) : r.noteOffBytes.length ≤ 3 := by
  unfold Channel.noteOffBytes
  split <;> simp

theorem length_ccBytes_le (r : Channel) (g : Option Payload) (v : Byte) : (ccBytes r g v).length ≤ 3 := by
  cases g <;> simp [ccBytes]

theorem length_modeChBytes_le (n : Nibble) (r : Channel) : (modeChBytes n r).length ≤ 3 := by
  unfold modeChBytes
  split
  · simp
  · exact length_noteOffBytes_le r

/-- A frame emits at most two messages of three bytes. -/
theorem length_frameBytes_le (k : Kind) (d : Payload) (r : Channel) : (frameBytes k d r).length ≤ 6 := by
  cases k with
  | note =>
    rw [frameBytes]
    split
    · exact (length_noteOffBytes_le r).trans (by decide)
    · simpa using length_noteOffBytes_le r
  | programChange =>
    rw [frameBytes]
    split <;> simp
  | controlChange =>
    simp only [frameBytes]
    cases r.configState with
    | idle => cases r.ccMode <;> exact (length_ccBytes_le ..).trans (by decide)
    | awaitMC => exact (length_modeChBytes_le ..).trans (by decide)
    | awaitCC | awaitVel => simp

/-- The sweep emits at most one Note Off for each of the four channels. -/
theorem length_sweepBytes_le (s : State) : (sweepOrder.flatMap (fun c => (s.chan c).noteOffBytes)).length ≤ 12 := by
  rw [List.length_flatMap]
  exact List.sum_le_card_nsmul (sweepOrder.map _) 3 (by simpa using fun c _ => length_noteOffBytes_le (s.chan c))

/-- A received payload only appends: at most 12 bytes for STOP, at most 6 otherwise. -/
theorem classify_appends (p : Payload) (s : State) :
    ∃ bs, (classify p s).midiOut = s.midiOut ++ bs ∧ bs.length ≤ 12 ∧ (p ≠ 0x7E#7 → bs.length ≤ 6) := by
  rcases classify_effect p s with ⟨-, -, h, -⟩ | ⟨hp, -, h, -⟩ | ⟨-, h⟩ | ⟨-, -, -, -, h, -⟩
  · exact ⟨[], by rw [h, List.append_nil], by simp, by simp⟩
  · exact ⟨_, h, length_sweepBytes_le s, fun hne => absurd hp hne⟩
  · have hlen := length_frameBytes_le s.fcKind p (s.chan s.fcChan)
    exact ⟨_, by rw [h]; rfl, hlen.trans (by decide), fun _ => hlen⟩
  · exact ⟨[], by rw [h, List.append_nil], by simp, by simp⟩

/-- Settles O54: a poll emits nothing, and a byte with STOP's payload is STOP's byte. -/
theorem outputOnlyGrowsAndIsBounded : Obligations.OutputOnlyGrowsAndIsBounded := by
  intro s
  rcases hp : poll s with ⟨_ | B, t⟩
  · refine ⟨t, [], step_of_poll_none s t hp, ?_, by simp, by simp, by simp⟩
    rw [poll_none_state s t hp, List.append_nil, afterPulses_midiOut]
  · obtain ⟨bs, hout, hall, hother⟩ := classify_appends (payloadOf B) t
    refine ⟨_, bs, step_of_poll_some s t B hp, ?_, hall, fun hne => hother fun hpay => hne ?_, by simp⟩
    · rw [hout, poll_some_state s t B hp, afterPulses_midiOut]
    · rw [← wireOf_payloadOf B (poll_some_msb s t B hp), hpay]
      rfl

/-- A silent idle channel's record is the one STOP would leave. -/
theorem quiet_eq_self (r : Channel) (hnote : r.currentNote = 0#7) (hcfg : r.configState = .idle) : r.quiet = r := by
  cases r
  simp_all [Channel.quiet]

/-- A received payload, while stopped with every channel silent and idle, emits nothing and changes no channel. -/
theorem classify_stopped (p : Payload) (s : State) (hs : s.started = false)
    (hq : ∀ c, (s.chan c).currentNote = 0#7 ∧ (s.chan c).configState = .idle) :
    (classify p s).midiOut = s.midiOut ∧ ∀ c, (classify p s).chan c = s.chan c := by
  rcases classify_effect p s with ⟨-, -, hout, h⟩ | ⟨-, -, hout, h⟩ | ⟨⟨-, -, hst⟩, -⟩ | ⟨-, -, -, -, hout, h⟩
  · refine ⟨hout, fun c => ?_⟩
    rw [h, ← (hq c).2]
  · have hself (c : Chan) := quiet_eq_self (s.chan c) (hq c).1 (hq c).2
    refine ⟨?_, fun c => by rw [h, hself]⟩
    rw [hout, List.flatMap_eq_nil_iff.mpr fun c _ => by rw [← hself]; rfl, List.append_nil]
  · simp [hs] at hst
  · exact ⟨hout, h⟩

/-- Settles O55: a poll changes no channel, and `classify_stopped` is the rest of the step. -/
theorem silentWhileStopped : Obligations.SilentWhileStopped := by
  intro s t hs hq hstep
  rcases step_cases s t hstep with ⟨rest, -, rfl⟩ | ⟨B, rest, -, -, rfl⟩
  · exact ⟨rfl, fun _ => rfl⟩
  · exact classify_stopped (payloadOf B) (afterPulses 8 rest s) hs hq

end Sys2Proof.Machine
end
